-- ==== Sys2Proof/Word.lean ====
section
/-! DEFINITION. The fixed widths of 00_scope R8: what the spec treats as bits. -/

namespace Sys2Proof

/-- A memory cell, a general register, a timer, an immediate `kk` (00_scope R8). -/
abbrev Byte := BitVec 8

/-- An instruction word, the pc, the index register, a stack entry (00_scope R8). -/
abbrev Word := BitVec 16

/-- A 4-bit field: a register index `x` or `y`, a row count `n`, a key code (30_encoding R81, 60_exceptions R221). -/
abbrev Nibble := BitVec 4

/-- The 12-bit address operand `nnn` (30_encoding R81). -/
abbrev Addr := BitVec 12

end Sys2Proof
end

