-- ==== Sys2Proof/Config.lean ====
section
/-! DEFINITION. What an implementation fixes: the sizes of 00_scope R6 at this hardware's values (log entry 1), the two readings
of a collision (40_display R103), and the one free value, the random byte (60_exceptions R222). The two values of R6 that no
source text states as bytes or as one wording, the font table and the collision rule in force, stand in Machine/Params.lean. -/

namespace Sys2Proof

/-- `MEM_SIZE` (00_scope R6). -/
abbrev Config.memSize : Nat := 0x1000
/-- `PROG_BASE` (00_scope R6). -/
abbrev Config.progBase : Nat := 0x200
/-- `FONT_BASE` (00_scope R6). -/
abbrev Config.fontBase : Nat := 0x050
/-- `GLYPH_COUNT` (00_scope R6). -/
abbrev Config.glyphCount : Nat := 16
/-- `GLYPH_BYTES` (00_scope R6). -/
abbrev Config.glyphBytes : Nat := 5
/-- `STACK_DEPTH` (00_scope R6). -/
abbrev Config.stackDepth : Nat := 16
/-- `DISP_W` (00_scope R6). -/
abbrev Config.dispW : Nat := 64
/-- `DISP_H` (00_scope R6). -/
abbrev Config.dispH : Nat := 32
/-- `NUM_REGS` (00_scope R6). -/
abbrev Config.numRegs : Nat := 16
/-- `MAX_IMAGE` (00_scope R6): the size of the general region, 3584 bytes. -/
abbrev Config.maxImage : Nat := Config.memSize - Config.progBase

/-- The sizes of 00_scope R6 as one record, so that the constraints of R7 can be stated of any choice of them. -/
structure Params where
  memSize : Nat
  progBase : Nat
  fontBase : Nat
  glyphCount : Nat
  glyphBytes : Nat
  stackDepth : Nat
  dispW : Nat
  dispH : Nat
  deriving DecidableEq, Repr

/-- This hardware's sizes (00_scope R6). -/
def Config.params : Params where
  memSize := Config.memSize
  progBase := Config.progBase
  fontBase := Config.fontBase
  glyphCount := Config.glyphCount
  glyphBytes := Config.glyphBytes
  stackDepth := Config.stackDepth
  dispW := Config.dispW
  dispH := Config.dispH

/-- The parameter `COLLISION_RULE` (40_display R103, 92_eei_decisions D11). -/
inductive CollisionRule where
  /-- A visited pixel that was set before the call is a collision. -/
  | oldSet
  /-- Only a set pixel that the blit clears is a collision. -/
  | setToClear
  deriving DecidableEq, Repr

/-- The random byte of a STEP event whose byte the host's list does not name (42_alu R153, 60_exceptions R222): a free value,
one for each draw. It has no body, so no proof can see what it is (log entry 9). -/
opaque Config.randomByte : Nat → Byte

end Sys2Proof
end

