-- ==== Sys2Proof/Syntax.lean ====
section
/-! DEFINITION. One constructor per row of spec/opcode_table.json, in the table's order. A constructor carries every field of
its word, those the instruction ignores included (log entry 13), so that a word and its instruction determine each other and
an error record can hold the raw word (60_exceptions R211). -/

namespace Sys2Proof

/-- The instructions (30_encoding R83, R89). Fields are named as R81 names them. -/
inductive Instr where
  /-- 00E0 `CLS` (40_display R106). -/
  | cls
  /-- 00EE `RET` (41_control R120). -/
  | ret
  /-- 1NNN `JP nnn` (41_control R121). -/
  | jp (nnn : Addr)
  /-- 2NNN `CALL nnn` (41_control R122). -/
  | call (nnn : Addr)
  /-- 3XKK `SE Vx, kk` (41_control R123). -/
  | seImm (x : Nibble) (kk : Byte)
  /-- 4XKK `SNE Vx, kk` (41_control R124). -/
  | sneImm (x : Nibble) (kk : Byte)
  /-- 5XYN `SE Vx, Vy`, `n` ignored (41_control R125, 30_encoding R87). -/
  | seReg (x y n : Nibble)
  /-- 6XKK `LD Vx, kk` (42_alu R142). -/
  | ldImm (x : Nibble) (kk : Byte)
  /-- 7XKK `ADD Vx, kk` (42_alu R143). -/
  | addImm (x : Nibble) (kk : Byte)
  /-- 8XY0 `LD Vx, Vy` (42_alu R144). -/
  | ldReg (x y : Nibble)
  /-- 8XY1 `OR Vx, Vy` (42_alu R145). -/
  | orReg (x y : Nibble)
  /-- 8XY2 `AND Vx, Vy` (42_alu R146). -/
  | andReg (x y : Nibble)
  /-- 8XY3 `XOR Vx, Vy` (42_alu R147). -/
  | xorReg (x y : Nibble)
  /-- 8XY4 `ADD Vx, Vy` (42_alu R148). -/
  | addReg (x y : Nibble)
  /-- 8XY5 `SUB Vx, Vy` (42_alu R149). -/
  | sub (x y : Nibble)
  /-- 8XY6 `SHR Vx`, `y` ignored (42_alu R150). -/
  | shr (x y : Nibble)
  /-- 8XY7 `SUBN Vx, Vy` (42_alu R151). -/
  | subn (x y : Nibble)
  /-- 8XYE `SHL Vx`, `y` ignored (42_alu R152). -/
  | shl (x y : Nibble)
  /-- 9XYN `SNE Vx, Vy`, `n` ignored (41_control R126, 30_encoding R87). -/
  | sneReg (x y n : Nibble)
  /-- ANNN `LD I, nnn` (43_index_memory R170). -/
  | ldI (nnn : Addr)
  /-- BNNN `JP V0, nnn` (41_control R127). -/
  | jpV0 (nnn : Addr)
  /-- CXKK `RND Vx, kk` (42_alu R153). -/
  | rnd (x : Nibble) (kk : Byte)
  /-- DXYN `DRW Vx, Vy, n` (40_display R107). -/
  | drw (x y n : Nibble)
  /-- EXXX, the whole class 0xE, its twelve bits ignored (44_timers_keyboard R195, 30_encoding R88). -/
  | classE (nnn : Addr)
  /-- FX07 `LD Vx, DT` (44_timers_keyboard R190). -/
  | ldVxDt (x : Nibble)
  /-- FX0A `LD Vx, K` (44_timers_keyboard R193). -/
  | ldVxK (x : Nibble)
  /-- FX15 `LD DT, Vx` (44_timers_keyboard R191). -/
  | ldDt (x : Nibble)
  /-- FX18 `LD ST, Vx` (44_timers_keyboard R192). -/
  | ldSt (x : Nibble)
  /-- FX1E `ADD I, Vx` (43_index_memory R171). -/
  | addI (x : Nibble)
  /-- FX29 `LD F, Vx` (43_index_memory R172). -/
  | ldF (x : Nibble)
  /-- FX33 `LD B, Vx` (43_index_memory R173). -/
  | ldB (x : Nibble)
  /-- FX55 `LD [I], Vx` (43_index_memory R174). -/
  | ldMemRegs (x : Nibble)
  /-- FX65 `LD Vx, [I]` (43_index_memory R175). -/
  | ldRegsMem (x : Nibble)
  deriving DecidableEq, Repr

end Sys2Proof
end

