-- ==== Sys2Proof/WellFormed.lean ====
section
/-! DEFINITION. What can be ill-formed: a 16-bit word (30_encoding R84 to R86), a program image (20_memory R61), a font table
(10_state R33), a choice of sizes (00_scope R7). An `Instr` cannot: its fields have exactly the widths of R81, so the check
`Instr.wellFormed` below, which is the range check of 10_state R35 and 30_encoding R82 written out, holds of every term
(Laws/Decode.lean, `Laws.instr_wellFormed`). -/

namespace Sys2Proof

/-- Is `w` the word of an instruction row (class 0xE included), not a malformed one? Written over numbers, apart from the
decoder, from 30_encoding R84 (class 0), R85 (class 8), R86 (class 0xF) and R87, R88 (the rest). -/
def wordWellFormed (w : Word) : Bool :=
  match w.toNat / 0x1000 with
  | 0x0 => [0x00E0, 0x00EE].contains w.toNat
  | 0x8 => [0x0, 0x1, 0x2, 0x3, 0x4, 0x5, 0x6, 0x7, 0xE].contains (w.toNat % 0x10)
  | 0xF => [0x07, 0x0A, 0x15, 0x18, 0x1E, 0x29, 0x33, 0x55, 0x65].contains (w.toNat % 0x100)
  | _ => true

/-- Every register index is below `NUM_REGS` (10_state R35); the other fields are taken as they are (30_encoding R82). -/
def Instr.wellFormed : Instr → Bool
  | .seReg x y _ | .ldReg x y | .orReg x y | .andReg x y | .xorReg x y | .addReg x y | .sub x y | .subn x y
  | .sneReg x y _ | .drw x y _ => decide (x.toNat < Config.numRegs) && decide (y.toNat < Config.numRegs)
  | .seImm x _ | .sneImm x _ | .ldImm x _ | .addImm x _ | .rnd x _ | .shr x _ | .shl x _
  | .ldVxDt x | .ldVxK x | .ldDt x | .ldSt x | .addI x | .ldF x | .ldB x | .ldMemRegs x | .ldRegsMem x =>
    decide (x.toNat < Config.numRegs)
  | .cls | .ret | .jp _ | .call _ | .ldI _ | .jpV0 _ | .classE _ => true

/-- A program image fits the general region (20_memory R61, R62). -/
def imageWellFormed (image : List Byte) : Bool := decide (image.length ≤ Config.maxImage)

/-- The shape any font table must have (10_state R33): 80 bytes, the low four bits of each 0. -/
def fontWellFormed (font : List Byte) : Bool :=
  decide (font.length = Config.glyphCount * Config.glyphBytes) && font.all (fun b => b &&& 0x0F#8 == 0#8)

/-- The constraints of 00_scope R7. -/
def Params.wellFormed (p : Params) : Bool :=
  decide (p.fontBase + p.glyphCount * p.glyphBytes ≤ p.progBase) && decide (p.progBase ≤ p.memSize)
    && decide (p.memSize ≤ 0x10000)

end Sys2Proof
end

