-- ==== Sys2Proof/Decode.lean ====
section
/-! DEFINITION. The decoder of 30_encoding R83, total on every word and on every list of bytes, and the encoder written from the
same encodings. -/

namespace Sys2Proof

/-- Why bytes are no instruction. -/
inductive DecodeError where
  /-- An unknown secondary function code of class 0, 8 or 0xF, with the raw word (30_encoding R84 to R86, R90). -/
  | malformed (w : Word)
  /-- Fewer than the two bytes of a word (30_encoding R80). The step never meets it: a fetch answers a whole word or an error. -/
  | truncated
  deriving DecidableEq, Repr

/-- `class` = `w[15:12]` (30_encoding R81). -/
def classOf (w : Word) : Nibble := w.extractLsb' 12 4
/-- `nnn` = `w[11:0]` (30_encoding R81). -/
def nnnOf (w : Word) : Addr := w.extractLsb' 0 12
/-- `x` = `w[11:8]` (30_encoding R81). -/
def xOf (w : Word) : Nibble := w.extractLsb' 8 4
/-- `y` = `w[7:4]` (30_encoding R81). -/
def yOf (w : Word) : Nibble := w.extractLsb' 4 4
/-- `kk` = `w[7:0]` (30_encoding R81). -/
def kkOf (w : Word) : Byte := w.extractLsb' 0 8
/-- `n` = `w[3:0]` (30_encoding R81). -/
def nOf (w : Word) : Nibble := w.extractLsb' 0 4

/-- A word from its two bytes, high byte first (20_memory R55). -/
def wordOfBytes (hi lo : Byte) : Word := hi ++ lo
/-- The byte of a word that lies at the lower address (20_memory R55). -/
def highByte (w : Word) : Byte := w.extractLsb' 8 8
/-- The byte of a word that lies at the higher address (20_memory R55). -/
def lowByte (w : Word) : Byte := w.extractLsb' 0 8

/-- Class 0: the secondary code is all of `w[11:0]` (30_encoding R84). -/
def decodeClass0 (w : Word) : Except DecodeError Instr :=
  match (nnnOf w).toNat with
  | 0x0E0 => .ok .cls
  | 0x0EE => .ok .ret
  | _ => .error (.malformed w)

/-- Class 8: the secondary code is `w[3:0]` (30_encoding R85). -/
def decodeClass8 (w : Word) : Except DecodeError Instr :=
  match (nOf w).toNat with
  | 0x0 => .ok (.ldReg (xOf w) (yOf w))
  | 0x1 => .ok (.orReg (xOf w) (yOf w))
  | 0x2 => .ok (.andReg (xOf w) (yOf w))
  | 0x3 => .ok (.xorReg (xOf w) (yOf w))
  | 0x4 => .ok (.addReg (xOf w) (yOf w))
  | 0x5 => .ok (.sub (xOf w) (yOf w))
  | 0x6 => .ok (.shr (xOf w) (yOf w))
  | 0x7 => .ok (.subn (xOf w) (yOf w))
  | 0xE => .ok (.shl (xOf w) (yOf w))
  | _ => .error (.malformed w)

/-- Class 0xF: the secondary code is `w[7:0]` (30_encoding R86). -/
def decodeClassF (w : Word) : Except DecodeError Instr :=
  match (kkOf w).toNat with
  | 0x07 => .ok (.ldVxDt (xOf w))
  | 0x0A => .ok (.ldVxK (xOf w))
  | 0x15 => .ok (.ldDt (xOf w))
  | 0x18 => .ok (.ldSt (xOf w))
  | 0x1E => .ok (.addI (xOf w))
  | 0x29 => .ok (.ldF (xOf w))
  | 0x33 => .ok (.ldB (xOf w))
  | 0x55 => .ok (.ldMemRegs (xOf w))
  | 0x65 => .ok (.ldRegsMem (xOf w))
  | _ => .error (.malformed w)

/-- The whole decoder (30_encoding R83): dispatch on the opcode class, then on the secondary code where the class has one. -/
def decodeWord (w : Word) : Except DecodeError Instr :=
  match (classOf w).toNat with
  | 0x0 => decodeClass0 w
  | 0x1 => .ok (.jp (nnnOf w))
  | 0x2 => .ok (.call (nnnOf w))
  | 0x3 => .ok (.seImm (xOf w) (kkOf w))
  | 0x4 => .ok (.sneImm (xOf w) (kkOf w))
  | 0x5 => .ok (.seReg (xOf w) (yOf w) (nOf w))
  | 0x6 => .ok (.ldImm (xOf w) (kkOf w))
  | 0x7 => .ok (.addImm (xOf w) (kkOf w))
  | 0x8 => decodeClass8 w
  | 0x9 => .ok (.sneReg (xOf w) (yOf w) (nOf w))
  | 0xA => .ok (.ldI (nnnOf w))
  | 0xB => .ok (.jpV0 (nnnOf w))
  | 0xC => .ok (.rnd (xOf w) (kkOf w))
  | 0xD => .ok (.drw (xOf w) (yOf w) (nOf w))
  | 0xE => .ok (.classE (nnnOf w))
  | 0xF => decodeClassF w
  | _ => .error (.malformed w)

/-- One instruction off the front of a list of bytes, with the bytes after it (30_encoding R80, 20_memory R55). -/
def decode : List Byte → Except DecodeError (Instr × List Byte)
  | hi :: lo :: rest =>
    match decodeWord (wordOfBytes hi lo) with
    | .ok i => .ok (i, rest)
    | .error e => .error e
  | _ => .error .truncated

/-- The word of an instruction (the encodings of 30_encoding R93 and of spec/opcode_table.json). -/
def encode : Instr → Word
  | .cls => 0x00E0#16
  | .ret => 0x00EE#16
  | .jp nnn => 0x1#4 ++ nnn
  | .call nnn => 0x2#4 ++ nnn
  | .seImm x kk => 0x3#4 ++ x ++ kk
  | .sneImm x kk => 0x4#4 ++ x ++ kk
  | .seReg x y n => 0x5#4 ++ x ++ y ++ n
  | .ldImm x kk => 0x6#4 ++ x ++ kk
  | .addImm x kk => 0x7#4 ++ x ++ kk
  | .ldReg x y => 0x8#4 ++ x ++ y ++ 0x0#4
  | .orReg x y => 0x8#4 ++ x ++ y ++ 0x1#4
  | .andReg x y => 0x8#4 ++ x ++ y ++ 0x2#4
  | .xorReg x y => 0x8#4 ++ x ++ y ++ 0x3#4
  | .addReg x y => 0x8#4 ++ x ++ y ++ 0x4#4
  | .sub x y => 0x8#4 ++ x ++ y ++ 0x5#4
  | .shr x y => 0x8#4 ++ x ++ y ++ 0x6#4
  | .subn x y => 0x8#4 ++ x ++ y ++ 0x7#4
  | .shl x y => 0x8#4 ++ x ++ y ++ 0xE#4
  | .sneReg x y n => 0x9#4 ++ x ++ y ++ n
  | .ldI nnn => 0xA#4 ++ nnn
  | .jpV0 nnn => 0xB#4 ++ nnn
  | .rnd x kk => 0xC#4 ++ x ++ kk
  | .drw x y n => 0xD#4 ++ x ++ y ++ n
  | .classE nnn => 0xE#4 ++ nnn
  | .ldVxDt x => 0xF#4 ++ x ++ 0x07#8
  | .ldVxK x => 0xF#4 ++ x ++ 0x0A#8
  | .ldDt x => 0xF#4 ++ x ++ 0x15#8
  | .ldSt x => 0xF#4 ++ x ++ 0x18#8
  | .addI x => 0xF#4 ++ x ++ 0x1E#8
  | .ldF x => 0xF#4 ++ x ++ 0x29#8
  | .ldB x => 0xF#4 ++ x ++ 0x33#8
  | .ldMemRegs x => 0xF#4 ++ x ++ 0x55#8
  | .ldRegsMem x => 0xF#4 ++ x ++ 0x65#8

/-- An instruction's bytes as they lie in memory (20_memory R55). -/
def encodeBytes (i : Instr) : List Byte := [highByte (encode i), lowByte (encode i)]

/-- The instruction the decoder reads from the word `w` given as the opcode table numbers its bits: one 16-bit word, laid out
high byte first. `nbits` is 16 for every row. -/
def decodeTableWord (nbits w : Nat) : Option Instr :=
  let word : Word := BitVec.ofNat 16 (w % 2 ^ nbits)
  match decode [highByte word, lowByte word] with
  | .ok (i, _) => some i
  | .error _ => none

end Sys2Proof
end

