-- ==== Sys2Proof/Machine/Params.lean ====
section
/-! DEFINITION. The two parameters of 00_scope R6 whose values rest on less than the source's words: the font table (log entry 2)
and the collision rule (log entry 3). -/

namespace Sys2Proof.Machine

/-- `FONT_GLYPHS`, the default table of 10_state R33. PRESUMED: the spec takes its bytes from general knowledge (log entry 2). -/
def fontGlyphs : List Byte :=
  [0xF0, 0x90, 0x90, 0x90, 0xF0,
   0x20, 0x60, 0x20, 0x20, 0x70,
   0xF0, 0x10, 0xF0, 0x80, 0xF0,
   0xF0, 0x10, 0xF0, 0x10, 0xF0,
   0x90, 0x90, 0xF0, 0x10, 0x10,
   0xF0, 0x80, 0xF0, 0x10, 0xF0,
   0xF0, 0x80, 0xF0, 0x90, 0xF0,
   0xF0, 0x10, 0x20, 0x40, 0x40] ++
  [0xF0, 0x90, 0xF0, 0x90, 0xF0,
   0xF0, 0x90, 0xF0, 0x10, 0xF0,
   0xF0, 0x90, 0xF0, 0x90, 0x90,
   0xE0, 0x90, 0xE0, 0x90, 0xE0,
   0xF0, 0x80, 0x80, 0x80, 0xF0,
   0xE0, 0x90, 0x90, 0x90, 0xE0,
   0xF0, 0x80, 0xF0, 0x80, 0xF0,
   0xF0, 0x80, 0xF0, 0x80, 0x80]

/-- `COLLISION_RULE` for this hardware (40_display R103, 92_eei_decisions D11; log entry 3). -/
def collisionRule : CollisionRule := .oldSet

end Sys2Proof.Machine
end

