-- ==== Sys2Proof/Machine/State.lean ====
section
/-! DEFINITION. The state of the block as plain data (10_state R20), the reasons a step can stop, and the state after reset
(70_reset_and_hazards R240). -/

namespace Sys2Proof.Machine

/-- The error causes of 60_exceptions R210, with the spec's own codes in `Cause.code`. -/
inductive Cause where
  /-- Code 1: no instruction raises it (10_state R35); the cause is kept, as R35 says. -/
  | invalidRegister
  /-- Code 2: a store below `PROG_BASE` or at or above `MEM_SIZE` (20_memory R53). -/
  | outOfBounds
  /-- Code 3: `CALL` with 16 entries on the stack (10_state R26). -/
  | stackOverflow
  /-- Code 4: `RET` with the stack empty (10_state R27). -/
  | stackUnderflow
  /-- Code 5: a reply of LOAD, never a step's error (20_memory R61). -/
  | capacityExceeded
  /-- Code 6: an unknown secondary function code (30_encoding R84 to R86). -/
  | malformedInstruction
  /-- Code 7: class 0xE (44_timers_keyboard R195). -/
  | unimplemented
  /-- Code 8: a fetch past the end of memory (20_memory R54). -/
  | fetchOutOfRange
  /-- Code 9: a block read past the end of memory (20_memory R52). -/
  | readOutOfRange
  deriving DecidableEq, Repr

/-- The numbering of 60_exceptions R210. -/
def Cause.code : Cause → Nat
  | .invalidRegister => 1
  | .outOfBounds => 2
  | .stackOverflow => 3
  | .stackUnderflow => 4
  | .capacityExceeded => 5
  | .malformedInstruction => 6
  | .unimplemented => 7
  | .fetchOutOfRange => 8
  | .readOutOfRange => 9

/-- The error record `rec = (cause, word, pc, addr)` of 60_exceptions R211. An address is a number: `I + k` is not reduced
modulo 2^16 (20_memory R58). -/
structure ErrorRecord where
  cause : Cause
  word : Option Word
  pc : Word
  addr : Option Nat
  deriving DecidableEq, Repr

/-- The status of 10_state R32. -/
inductive Status where
  /-- A STEP executes the instruction at `pc`. -/
  | running
  /-- Suspended inside `LD Vx, K`, waiting for a key (44_timers_keyboard R193). -/
  | waitKey (x : Nibble)
  /-- A step ended in an error; only RESET leaves this status (60_exceptions R213). -/
  | faulted (rec : ErrorRecord)
  deriving DecidableEq, Repr

/-- The host's events, each with its input (60_exceptions R220). -/
inductive HostEvent where
  | reset
  | load (image : List Byte)
  /-- STEP with the one random byte of R222. -/
  | step (randomByte : Byte)
  | keyPress (key : Nibble)
  | timerTick
  | dirtyClear
  | readDirty
  | snapshot
  | readStatus
  deriving DecidableEq, Repr

/-- Memory: the cells that differ from their reset contents, addresses strictly rising (log entry 12). -/
abbrev Memory := List Host.Cell

/-- The pixel grid of 10_state R30: row `py` of column `px`, `true` is set. The order of rows and columns here is the model's
(log entry 17). -/
abbrev Grid := Vector (Vector Bool Config.dispW) Config.dispH

/-- The architectural state (10_state R20), every field under the spec's own name but for `v`, `i`, `dt`, `st`, `sp`, which the
spec writes in capitals; and after it the three fields of the model's own. -/
structure State where
  /-- V0 to VF (10_state R21). -/
  v : Vector Byte Config.numRegs
  /-- The index register `I` (10_state R23). -/
  i : Word
  /-- The program counter (10_state R24). -/
  pc : Word
  /-- The call stack's entries (10_state R25). -/
  stack : Vector Word Config.stackDepth
  /-- `SP`, the number of valid entries, 0 to `STACK_DEPTH` (10_state R25). -/
  sp : Fin (Config.stackDepth + 1)
  /-- The delay timer `DT` (10_state R28). -/
  dt : Byte
  /-- The sound timer `ST` (10_state R28). -/
  st : Byte
  /-- RAM (10_state R29). -/
  mem : Memory
  /-- The framebuffer (10_state R30). -/
  fb : Grid
  /-- The dirty flag (10_state R31). -/
  dirty : Bool
  /-- The status (10_state R32). -/
  status : Status
  /-- A LOAD has succeeded (10_state R34). -/
  loaded : Bool
  /-- A STEP has happened since reset (10_state R34). -/
  started : Bool
  /-- THE MODEL'S OWN (log entry 9): the random byte supplied with the current STEP event, if the host's list named it. -/
  draw : Option Byte
  /-- THE MODEL'S OWN (log entry 9): how many random bytes have been drawn, the argument of `Config.randomByte`. -/
  draws : Nat
  /-- THE MODEL'S OWN (log entry 6): the host's pending events, oldest first. -/
  host : List HostEvent
  deriving DecidableEq, Repr

/-- Why the machine stops with a fault. The block's own errors are NOT here: they set the status `FAULTED` and the machine
goes on to a next state (60_exceptions R212). -/
inductive Fault where
  /-- Raised by `applyEvent` (Machine/Cycle.lean) when the host's list names a STEP while the status is `WAIT_KEY`, where STEP
  is not enabled (30_encoding R91): a stuck state, for no such event can happen. Safe. -/
  | stepNotEnabled
  deriving DecidableEq, Repr

/-- Why a step is refused. -/
inductive Refusal where
  /-- An arm of `exec` without a meaning. No arm of this model answers it. Safe. -/
  | notModelled (mnemonic : String)
  /-- Raised by `applyEvent` (Machine/Cycle.lean) when the host's list names a LOAD after a successful LOAD or after the first
  STEP, where LOAD is not enabled (20_memory R61, treatment `refuse` of 93_implementation_defined I14). Safe. -/
  | loadNotEnabled
  deriving DecidableEq, Repr

/-- The state right after RESET (70_reset_and_hazards R240). The font table is in memory although no cell is listed: an
unlisted cell reads as its reset contents. -/
def State.reset : State where
  v := Vector.replicate Config.numRegs 0
  i := 0
  pc := BitVec.ofNat 16 Config.progBase
  stack := Vector.replicate Config.stackDepth 0
  sp := 0
  dt := 0
  st := 0
  mem := []
  fb := Vector.replicate Config.dispH (Vector.replicate Config.dispW false)
  dirty := false
  status := .running
  loaded := false
  started := false
  draw := none
  draws := 0
  host := []

end Sys2Proof.Machine
end

