-- ==== Sys2Proof/Machine/Ops.lean ====
section
/-! DEFINITION. The named operations over memory, registers, stack and status: the primitives of 00_scope R11. -/

namespace Sys2Proof.Machine

/-- What a meaning, an event and a step answer. -/
abbrev Result := Host.Outcome State Fault Refusal

/-! ### Memory (20_memory) -/

/-- The reset contents of a cell, which is what an unlisted address reads as: the font table at `FONT_BASE`, 0 elsewhere
(10_state R29, R33; 70_reset_and_hazards R240). -/
def resetByte (a : Nat) : Byte :=
  if Config.fontBase ≤ a then fontGlyphs.getD (a - Config.fontBase) 0 else 0

/-- The byte at an address. The primitives below refuse an address at or above `MEM_SIZE` before they read it. -/
def readByte : Memory → Nat → Byte
  | [], a => resetByte a
  | (b, w) :: m, a => if a = b then w else readByte m a

/-- The canonical form of memory: addresses strictly rising and inside memory, no cell at its reset contents (log entry 12). -/
def Memory.wf : Memory → Bool
  | [] => true
  | (a, w) :: m =>
    decide (a < Config.memSize) && decide (w ≠ resetByte a) && m.all (fun c => decide (a < c.1)) && Memory.wf m

/-- A byte written with no guard, keeping the canonical form. -/
def putByte : Memory → Nat → Byte → Memory
  | [], a, w => if w = resetByte a then [] else [(a, w)]
  | (b, u) :: m, a, w =>
    if a < b then (if w = resetByte a then (b, u) :: m else (a, w) :: (b, u) :: m)
    else if a = b then (if w = resetByte a then m else (a, w) :: m)
    else (b, u) :: putByte m a w

/-- Bytes written from an address upward with no guard: what LOAD does (20_memory R61). -/
def putBytes (a : Nat) : List Byte → Memory → Memory
  | [], m => m
  | w :: ws, m => putBytes (a + 1) ws (putByte m a w)

/-- `MemRead(a, n)`: all `n` bytes, or the first of its addresses that is outside memory (20_memory R52). -/
def readBlock (m : Memory) : Nat → Nat → Except Nat (List Byte)
  | _, 0 => .ok []
  | a, n + 1 =>
    if Config.memSize ≤ a then .error a
    else
      match readBlock m (a + 1) n with
      | .ok bytes => .ok (readByte m a :: bytes)
      | .error bad => .error bad

/-- `MemWrite(a, 1, w)`: `none` where the guard refuses the address (20_memory R53). -/
def memWrite (m : Memory) (a : Nat) (w : Byte) : Option Memory :=
  if a < Config.progBase ∨ Config.memSize ≤ a then none else some (putByte m a w)

/-- Single-byte guarded writes at ascending addresses (20_memory R57): the memory after the writes made, and the first address
refused, if any. The bytes before it stay written (60_exceptions R212). -/
def storeBytes (a : Nat) : List Byte → Memory → Memory × Option Nat
  | [], m => (m, none)
  | w :: ws, m =>
    match memWrite m a w with
    | none => (m, some a)
    | some m' => storeBytes (a + 1) ws m'

/-- `FetchWord(a)`: the big-endian word, or the first missing byte's address (20_memory R54, R55). -/
def fetchWord (m : Memory) (a : Nat) : Except Nat Word :=
  if Config.memSize ≤ a + 1 then .error (if Config.memSize ≤ a then a else a + 1)
  else .ok (wordOfBytes (readByte m a) (readByte m (a + 1)))

/-! ### Registers (10_state) -/

/-- `VF`, register 15 (10_state R22). -/
def vf : Nibble := 0xF

/-- Read `V[x]` (10_state R21). No index is refused: a 4-bit field cannot name a register 16 (10_state R35). -/
def reg (x : Nibble) (s : State) : Byte := s.v[x.toNat]'(x.isLt)

/-- `V[x] <- w` (10_state R21). -/
def setReg (x : Nibble) (w : Byte) (s : State) : State := { s with v := s.v.set x.toNat w x.isLt }

/-- Registers written in ascending order from index `k` (43_index_memory R175). -/
def setRegsFrom (k : Nat) : List Byte → State → State
  | [], s => s
  | w :: ws, s => setRegsFrom (k + 1) ws (setReg (BitVec.ofNat 4 k) w s)

/-- `I <- w` (10_state R23). -/
def setI (w : Word) (s : State) : State := { s with i := w }

/-- `pc <- w` (10_state R24). -/
def setPc (w : Word) (s : State) : State := { s with pc := w }

/-- The sequential `pc` update, modulo 2^16 (30_encoding R92). -/
def advance (s : State) : State := setPc (s.pc + 2) s

/-- The `pc` update of a skip: over the next word where the condition holds (30_encoding R92). -/
def skipIf (cond : Bool) (s : State) : State := setPc (if cond then s.pc + 4 else s.pc + 2) s

/-- `DT <- w` (10_state R28). -/
def setDt (w : Byte) (s : State) : State := { s with dt := w }

/-- `ST <- w` (10_state R28). -/
def setSt (w : Byte) (s : State) : State := { s with st := w }

/-- The state with another memory. -/
def setMem (m : Memory) (s : State) : State := { s with mem := m }

/-- The state with another picture and dirty flag (10_state R30, R31). -/
def setScreen (g : Grid) (dirty : Bool) (s : State) : State := { s with fb := g, dirty := dirty }

/-- The state with another status (10_state R32). -/
def setStatus (t : Status) (s : State) : State := { s with status := t }

/-! ### Call stack (10_state) -/

/-- `Push(a)`: `none` on overflow (10_state R26). -/
def push (a : Word) (s : State) : Option State :=
  if h : s.sp.val < Config.stackDepth then
    some { s with stack := s.stack.set s.sp.val a h, sp := ⟨s.sp.val + 1, Nat.succ_lt_succ h⟩ }
  else none

/-- `Pop()`: the popped address and the state after, `none` on underflow (10_state R27). -/
def pop (s : State) : Option (Word × State) :=
  if h : 0 < s.sp.val then
    have top : s.sp.val - 1 < Config.stackDepth := by have := s.sp.isLt; omega
    some (s.stack[s.sp.val - 1]'top, { s with sp := ⟨s.sp.val - 1, Nat.lt_succ_of_lt top⟩ })
  else none

/-! ### Error entry and the way out of it (60_exceptions) -/

/-- What `raise` does (60_exceptions R212): the status takes the error record, whose `pc` is the one the instruction was
fetched from; `pc`, every earlier write and everything else stay. There is no vector and nothing else is saved. -/
def raiseError (cause : Cause) (word : Option Word) (addr : Option Nat) (s : State) : State :=
  setStatus (.faulted { cause := cause, word := word, pc := s.pc, addr := addr }) s

/-- An instruction's own error: the record holds its raw word, which is `encode` of it (60_exceptions R211). -/
def trap (cause : Cause) (i : Instr) (addr : Option Nat) (s : State) : Result :=
  .next (raiseError cause (some (encode i)) addr s)

/-- RESET, the only way out of `FAULTED` (60_exceptions R213, R216; 70_reset_and_hazards R240): every piece of the block's state
takes its reset value. The model's own three fields stay: they are the host's, not the block's (log entry 10). -/
def resetBlock (s : State) : State := { State.reset with draw := s.draw, draws := s.draws, host := s.host }

/-! ### The step's own inputs (60_exceptions R222) -/

/-- What a STEP event does before its fetch: `started <- 1` (30_encoding R91), and its random byte is at hand, if named. -/
def beginStep (randomByte : Option Byte) (s : State) : State := { s with started := true, draw := randomByte }

/-- The byte `Draw()` returns (60_exceptions R222): the STEP event's, or a free value where the host's list names none. -/
def drawnByte (s : State) : Byte :=
  match s.draw with
  | some r => r
  | none => Config.randomByte s.draws

/-- The draw counted, so that the next free byte is another one (log entry 9). -/
def countDraw (s : State) : State := { s with draws := s.draws + 1 }

/-- A word placed where the next fetch reads it, for `withFetchWord` only (log entry 14): the block runs, no host event is
pending, and a `pc` from which no whole word can be fetched goes back to `PROG_BASE`. -/
def placeWord (w : Word) (s : State) : State :=
  let pc : Word := if Config.memSize ≤ s.pc.toNat + 1 then BitVec.ofNat 16 Config.progBase else s.pc
  { s with
    pc := pc
    status := .running
    host := []
    mem := putBytes pc.toNat [highByte w, lowByte w] s.mem }

end Sys2Proof.Machine
end

