-- ==== Sys2Proof/Machine/Operands.lean ====
section
/-! DEFINITION. Operand assembly (30_encoding R82) and the values the instructions compute from their operands other than flags. -/

namespace Sys2Proof.Machine

/-- `zext_16(nnn)` (30_encoding R82). -/
def zextAddr (nnn : Addr) : Word := nnn.setWidth 16

/-- The target of `JP V0, nnn`: not masked to 12 bits (41_control R127). -/
def jumpV0Target (nnn : Addr) (v0 : Byte) : Word := BitVec.ofNat 16 (nnn.toNat + v0.toNat)

/-- The target of a `CALL`'s return: the word after it, modulo 2^16 (41_control R122). -/
def returnAddress (pc : Word) : Word := pc + 2

/-- The sum of `ADD Vx, Vy`, widened (42_alu R148). -/
def wideSum (a b : Byte) : Nat := a.toNat + b.toNat

/-- `I + Vx` modulo 2^16 (43_index_memory R171). -/
def indexSum (i : Word) (w : Byte) : Word := BitVec.ofNat 16 (i.toNat + w.toNat)

/-- The address of the glyph of `w`, `w` not masked (43_index_memory R172). -/
def glyphAddress (w : Byte) : Word := BitVec.ofNat 16 (Config.fontBase + w.toNat * Config.glyphBytes)

/-- The effective address `I + k`, unbounded (20_memory R58). -/
def effectiveAddress (s : State) (k : Nat) : Nat := s.i.toNat + k

/-- Hundreds, tens, ones (43_index_memory R173). -/
def bcdDigits (w : Byte) : List Byte :=
  [BitVec.ofNat 8 (w.toNat / 100), BitVec.ofNat 8 (w.toNat / 10 % 10), BitVec.ofNat 8 (w.toNat % 10)]

/-- How many registers `V0` to `Vx` are (43_index_memory R174, R175). -/
def blockLength (x : Nibble) : Nat := x.toNat + 1

/-- The bytes of `V0` to `Vx`, in order (43_index_memory R174). -/
def regsThrough (x : Nibble) (s : State) : List Byte := s.v.toList.take (blockLength x)

end Sys2Proof.Machine
end

