-- ==== Sys2Proof/Machine/Flags.lean ====
section
/-! DEFINITION. Every flag an instruction computes; all go to `VF` (10_state R22), and there is no other flag register (R36). -/

namespace Sys2Proof.Machine

/-- A one-bit flag as the byte written to `VF`. -/
def flagByte (b : Bool) : Byte := if b then 1 else 0

/-- The carry of 8XY4: the widened sum exceeds 255 (42_alu R148). -/
def carryFlag (sum : Nat) : Byte := flagByte (decide (255 < sum))

/-- NOT-borrow of `a - b`, strict: equal operands give 0 (42_alu R141, R149, R151). -/
def notBorrowFlag (a b : Byte) : Byte := flagByte (decide (b.toNat < a.toNat))

/-- The bit `SHR` shifts out (42_alu R150). -/
def shrFlag (a : Byte) : Byte := a &&& 0x01

/-- The bit `SHL` shifts out, 0x80 or 0x00, not normalized (42_alu R152, 90_conflicts C1). -/
def shlFlag (a : Byte) : Byte := a &&& 0x80

/-- `CollisionHit(old, bit)` under a collision rule (40_display R103). -/
def collisionHit : CollisionRule → (old bit : Bool) → Bool
  | .oldSet, old, _ => old
  | .setToClear, old, bit => old && bit

end Sys2Proof.Machine
end

