-- ==== Sys2Proof/Machine/Alu.lean ====
section
/-! DEFINITION. The register and ALU instructions (42_alu). Statements run in the order written, each reading the registers as
the ones before it left them (00_scope R12, 42_alu R140): where `VF` is an operand, the second statement reads the flag just
written. -/

namespace Sys2Proof.Machine

/-- `LD Vx, kk` (42_alu R142). -/
def execLdImm (x : Nibble) (kk : Byte) (s : State) : Result := .next (advance (setReg x kk s))

/-- `ADD Vx, kk`, no flag (42_alu R143). -/
def execAddImm (x : Nibble) (kk : Byte) (s : State) : Result := .next (advance (setReg x (reg x s + kk) s))

/-- `LD Vx, Vy` (42_alu R144). -/
def execLdReg (x y : Nibble) (s : State) : Result := .next (advance (setReg x (reg y s) s))

/-- `OR Vx, Vy` (42_alu R145). -/
def execOrReg (x y : Nibble) (s : State) : Result := .next (advance (setReg x (reg x s ||| reg y s) s))

/-- `AND Vx, Vy` (42_alu R146). -/
def execAndReg (x y : Nibble) (s : State) : Result := .next (advance (setReg x (reg x s &&& reg y s) s))

/-- `XOR Vx, Vy` (42_alu R147). -/
def execXorReg (x y : Nibble) (s : State) : Result := .next (advance (setReg x (reg x s ^^^ reg y s) s))

/-- `ADD Vx, Vy`: the widened sum is taken before both writes (42_alu R148). -/
def execAddReg (x y : Nibble) (s : State) : Result :=
  let sum := wideSum (reg x s) (reg y s)
  let s1 := setReg vf (carryFlag sum) s
  .next (advance (setReg x (BitVec.ofNat 8 sum) s1))

/-- `SUB Vx, Vy` (42_alu R149). -/
def execSub (x y : Nibble) (s : State) : Result :=
  let s1 := setReg vf (notBorrowFlag (reg x s) (reg y s)) s
  .next (advance (setReg x (reg x s1 - reg y s1) s1))

/-- `SHR Vx`, `y` ignored (42_alu R150). -/
def execShr (x _y : Nibble) (s : State) : Result :=
  let s1 := setReg vf (shrFlag (reg x s)) s
  .next (advance (setReg x (reg x s1 >>> 1) s1))

/-- `SUBN Vx, Vy` (42_alu R151). -/
def execSubn (x y : Nibble) (s : State) : Result :=
  let s1 := setReg vf (notBorrowFlag (reg y s) (reg x s)) s
  .next (advance (setReg x (reg y s1 - reg x s1) s1))

/-- `SHL Vx`, `y` ignored (42_alu R152). -/
def execShl (x _y : Nibble) (s : State) : Result :=
  let s1 := setReg vf (shlFlag (reg x s)) s
  .next (advance (setReg x (reg x s1 <<< 1) s1))

/-- `RND Vx, kk` (42_alu R153). -/
def execRnd (x : Nibble) (kk : Byte) (s : State) : Result :=
  .next (advance (setReg x (drawnByte s &&& kk) (countDraw s)))

end Sys2Proof.Machine
end

