-- ==== Sys2Proof/Machine/Control.lean ====
section
/-! DEFINITION. The control transfer instructions (41_control). -/

namespace Sys2Proof.Machine

/-- `RET` (41_control R120). -/
def execRet (s : State) : Result :=
  match pop s with
  | none => trap .stackUnderflow .ret none s
  | some (target, s') => .next (setPc target s')

/-- `JP nnn` (41_control R121). -/
def execJp (nnn : Addr) (s : State) : Result := .next (setPc (zextAddr nnn) s)

/-- `CALL nnn` (41_control R122). -/
def execCall (nnn : Addr) (s : State) : Result :=
  match push (returnAddress s.pc) s with
  | none => trap .stackOverflow (.call nnn) none s
  | some s' => .next (setPc (zextAddr nnn) s')

/-- `SE Vx, kk` (41_control R123). -/
def execSeImm (x : Nibble) (kk : Byte) (s : State) : Result := .next (skipIf (decide (reg x s = kk)) s)

/-- `SNE Vx, kk` (41_control R124). -/
def execSneImm (x : Nibble) (kk : Byte) (s : State) : Result := .next (skipIf (decide (reg x s ≠ kk)) s)

/-- `SE Vx, Vy`, the low nibble ignored (41_control R125). -/
def execSeReg (x y _n : Nibble) (s : State) : Result := .next (skipIf (decide (reg x s = reg y s)) s)

/-- `SNE Vx, Vy`, the low nibble ignored (41_control R126). -/
def execSneReg (x y _n : Nibble) (s : State) : Result := .next (skipIf (decide (reg x s ≠ reg y s)) s)

/-- `JP V0, nnn` (41_control R127). -/
def execJpV0 (nnn : Addr) (s : State) : Result := .next (setPc (jumpV0Target nnn (reg 0 s)) s)

end Sys2Proof.Machine
end

