-- ==== Sys2Proof/Machine/Framebuffer.lean ====
section
/-! DEFINITION. The framebuffer controller: pixels (10_state R30) and its two operations (40_display R100 to R105). -/

namespace Sys2Proof.Machine

/-- `Pix(px, py)`; `false` outside the grid, which no operation visits. -/
def pix (g : Grid) (px py : Nat) : Bool :=
  if h : px < Config.dispW ∧ py < Config.dispH then (g[py]'h.2)[px]'h.1 else false

/-- `Pix(px, py) <- b`; nothing outside the grid. -/
def setPix (g : Grid) (px py : Nat) (b : Bool) : Grid :=
  if h : px < Config.dispW ∧ py < Config.dispH then g.set py ((g[py]'h.2).set px b h.1) h.2 else g

/-- Every pixel clear. -/
def clearGrid : Grid := Vector.replicate Config.dispH (Vector.replicate Config.dispW false)

/-- `ClearFB()`: every pixel clear and the dirty flag 0 (40_display R100, 90_conflicts C3). -/
def clearFb (s : State) : State := setScreen clearGrid false s

/-- One visited pixel of a blit, with the collision so far: the XOR of 40_display R101 and the hit of R103. -/
def blitPixel (rule : CollisionRule) (bit : Bool) (px py : Nat) (acc : Grid × Bool) : Grid × Bool :=
  let old := pix acc.1 px py
  (setPix acc.1 px py (old ^^ bit), acc.2 || collisionHit rule old bit)

/-- One sprite row over the columns listed, left to right, stopping at the right edge (40_display R101, R105); bit `7 - c` of
the byte is column `c` (R102). -/
def blitRow (rule : CollisionRule) (row : Byte) (x y : Nat) : List Nat → Grid × Bool → Grid × Bool
  | [], acc => acc
  | c :: cs, acc =>
    if Config.dispW ≤ x + c then acc
    else blitRow rule row x y cs (blitPixel rule (row.getLsbD (7 - c)) (x + c) y acc)

/-- The rows of a sprite downward from row `y`, stopping at the bottom edge (40_display R101, R105). -/
def blitRows (rule : CollisionRule) (x : Nat) : Nat → List Byte → Grid × Bool → Grid × Bool
  | _, [], acc => acc
  | y, row :: rows, acc =>
    if Config.dispH ≤ y then acc
    else blitRows rule x (y + 1) rows (blitRow rule row x y [0, 1, 2, 3, 4, 5, 6, 7] acc)

/-- `BlitSprite(bytes, x, y)` on a grid: the grid after and the collision (40_display R101). The dirty flag, which every blit
sets (R104), is set by `DRW`. -/
def blitSprite (rule : CollisionRule) (bytes : List Byte) (x y : Byte) (g : Grid) : Grid × Bool :=
  blitRows rule x.toNat y.toNat bytes (g, false)

end Sys2Proof.Machine
end

