-- ==== Sys2Proof/Machine/Display.lean ====
section
/-! DEFINITION. The display instructions (40_display §2). -/

namespace Sys2Proof.Machine

/-- `CLS` (40_display R106). -/
def execCls (s : State) : Result := .next (advance (clearFb s))

/-- `DRW Vx, Vy, n` (40_display R107): the block read first; then the blit, at coordinates read before `VF` is written. -/
def execDrw (x y n : Nibble) (s : State) : Result :=
  match readBlock s.mem (effectiveAddress s 0) n.toNat with
  | .error bad => trap .readOutOfRange (.drw x y n) (some bad) s
  | .ok bytes =>
    let drawn := blitSprite collisionRule bytes (reg x s) (reg y s) s.fb
    .next (advance (setReg vf (flagByte drawn.2) (setScreen drawn.1 true s)))

end Sys2Proof.Machine
end

