-- ==== Sys2Proof/Machine/IndexMemory.lean ====
section
/-! DEFINITION. The index register and memory instructions (43_index_memory). None changes `I` but the three that set it. -/

namespace Sys2Proof.Machine

/-- `LD I, nnn` (43_index_memory R170). -/
def execLdI (nnn : Addr) (s : State) : Result := .next (advance (setI (zextAddr nnn) s))

/-- `ADD I, Vx`, no flag (43_index_memory R171). -/
def execAddI (x : Nibble) (s : State) : Result := .next (advance (setI (indexSum s.i (reg x s)) s))

/-- `LD F, Vx` (43_index_memory R172). -/
def execLdF (x : Nibble) (s : State) : Result := .next (advance (setI (glyphAddress (reg x s)) s))

/-- The stores of FX33 and FX55 at `I` upward for the instruction `i`: where one is refused the earlier bytes stay, and the
error names the refused address (60_exceptions R212). -/
def storeThrough (i : Instr) (bytes : List Byte) (s : State) : Result :=
  match storeBytes (effectiveAddress s 0) bytes s.mem with
  | (m, none) => .next (advance (setMem m s))
  | (m, some bad) => trap .outOfBounds i (some bad) (setMem m s)

/-- `LD B, Vx` (43_index_memory R173). -/
def execLdB (x : Nibble) (s : State) : Result := storeThrough (.ldB x) (bcdDigits (reg x s)) s

/-- `LD [I], Vx` (43_index_memory R174). -/
def execLdMemRegs (x : Nibble) (s : State) : Result := storeThrough (.ldMemRegs x) (regsThrough x s) s

/-- `LD Vx, [I]` (43_index_memory R175): one block read before any register is written. -/
def execLdRegsMem (x : Nibble) (s : State) : Result :=
  match readBlock s.mem (effectiveAddress s 0) (blockLength x) with
  | .error bad => trap .readOutOfRange (.ldRegsMem x) (some bad) s
  | .ok bytes => .next (advance (setRegsFrom 0 bytes s))

end Sys2Proof.Machine
end

