-- ==== Sys2Proof/Machine/TimersKeyboard.lean ====
section
/-! DEFINITION. The timer and keyboard instructions and class 0xE (44_timers_keyboard). -/

namespace Sys2Proof.Machine

/-- `LD Vx, DT` (44_timers_keyboard R190). -/
def execLdVxDt (x : Nibble) (s : State) : Result := .next (advance (setReg x s.dt s))

/-- `LD Vx, K`, first half: the block suspends, `pc` and `Vx` unchanged (44_timers_keyboard R193). The second half is the
KEY_PRESS event, `keyPress` in Machine/Events.lean (R194). -/
def execLdVxK (x : Nibble) (s : State) : Result := .next (setStatus (.waitKey x) s)

/-- `LD DT, Vx` (44_timers_keyboard R191). -/
def execLdDt (x : Nibble) (s : State) : Result := .next (advance (setDt (reg x s) s))

/-- `LD ST, Vx` (44_timers_keyboard R192). -/
def execLdSt (x : Nibble) (s : State) : Result := .next (advance (setSt (reg x s) s))

/-- Class 0xE: always the error `Unimplemented`, which is taken (44_timers_keyboard R195). -/
def execClassE (nnn : Addr) (s : State) : Result := trap .unimplemented (.classE nnn) none s

end Sys2Proof.Machine
end

