-- ==== Sys2Proof/Machine/Events.lean ====
section
/-! DEFINITION. The host's events other than STEP (60_exceptions R220), what the host observes, and what an event returns. -/

namespace Sys2Proof.Machine

/-- Is LOAD enabled (10_state R34)? -/
def loadEnabled (s : State) : Bool := !s.loaded && !s.started

/-- LOAD (20_memory R61): the image from `PROG_BASE`, past the write guard; an image too large changes nothing. -/
def loadImage (image : List Byte) (s : State) : State :=
  if imageWellFormed image then { s with mem := putBytes Config.progBase image s.mem, loaded := true } else s

/-- KEY_PRESS (44_timers_keyboard R194): completes a pending `LD Vx, K`; otherwise changes nothing. -/
def keyPress (key : Nibble) (s : State) : State :=
  match s.status with
  | .waitKey x => setStatus .running (advance (setReg x (key.setWidth 8) s))
  | .running | .faulted _ => s

/-- One timer's count: down by one, stopping at zero (60_exceptions R218). -/
def countDown (w : Byte) : Byte := if 0 < w.toNat then w - 1 else w

/-- TIMER_TICK, in every status (60_exceptions R218). -/
def timerTick (s : State) : State := setSt (countDown s.st) (setDt (countDown s.dt) s)

/-- DIRTY_CLEAR (60_exceptions R223). -/
def dirtyClear (s : State) : State := setScreen s.fb false s

/-- The read-only output `SOUND_ACTIVE` (60_exceptions R219). -/
def soundActive (s : State) : Bool := decide (s.st ≠ 0)

/-- What an event returns to the host (60_exceptions R220; log entry 18 for what R220 leaves open). -/
inductive Reply where
  /-- The event returns nothing, or is not enabled. -/
  | nothing
  | ok
  | capacityExceeded
  /-- STEP that ended in an error, or (DESIGN CHOICE, log entry 18) met one. -/
  | error (rec : ErrorRecord)
  /-- READ_DIRTY. -/
  | dirty (d : Bool)
  /-- SNAPSHOT: the grid, read through `pix` (60_exceptions R223; log entry 17). -/
  | grid (g : Grid)
  /-- READ_STATUS: the status, with the record inside it when `FAULTED`. -/
  | status (t : Status)
  deriving DecidableEq, Repr

/-- The reply of LOAD (20_memory R61). -/
def loadReply (image : List Byte) (s : State) : Reply :=
  if loadEnabled s then (if imageWellFormed image then .ok else .capacityExceeded) else .nothing

/-- The reply of a STEP from the status it leaves: ok, or the error record (60_exceptions R220). DESIGN CHOICE (log entry 18): a
STEP in `FAULTED`, of which R213 says only that it changes nothing, replies the record that stands in the status. DEDUCED (log
entry 18): a STEP that suspends in `LD Vx, K` has raised nothing and replies ok. -/
def stepReply : Result → Reply
  | .next t =>
    match t.status with
    | .faulted rec => .error rec
    | .running | .waitKey _ => .ok
  | .fault _ | .refused _ => .nothing

end Sys2Proof.Machine
end

