-- ==== Sys2Proof/Machine/Cycle.lean ====
section
/-! DEFINITION. The STEP event (30_encoding R91) and the application of one host event (60_exceptions R220). -/

namespace Sys2Proof.Machine

/-- Fetch, decode and execute (30_encoding R91), with the errors in the order of 60_exceptions R214. -/
def runInstruction (s : State) : Result :=
  match fetchWord s.mem s.pc.toNat with
  | .error bad => .next (raiseError .fetchOutOfRange none (some bad) s)
  | .ok w =>
    match decodeWord w with
    | .ok i => exec i s
    | .error _ => .next (raiseError .malformedInstruction (some w) none s)

/-- The STEP event: it executes in `RUNNING`, changes nothing in `FAULTED` (60_exceptions R213), and is not enabled in
`WAIT_KEY` (30_encoding R91; log entries 5 and 8). -/
def stepEvent (randomByte : Option Byte) (s : State) : Result :=
  match s.status with
  | .running => runInstruction (beginStep randomByte s)
  | .faulted _ => .next s
  | .waitKey _ => .fault .stepNotEnabled

/-- One event of the host's list, where it is enabled (60_exceptions R220). -/
def applyEvent (e : HostEvent) (s : State) : Result :=
  match e with
  | .reset => .next (resetBlock s)
  | .load image => if loadEnabled s then .next (loadImage image s) else .refused .loadNotEnabled
  | .step r => stepEvent (some r) s
  | .keyPress key => .next (keyPress key s)
  | .timerTick => .next (timerTick s)
  | .dirtyClear => .next (dirtyClear s)
  | .readDirty | .snapshot | .readStatus => .next s

/-- What an event applied to `s` returns (60_exceptions R220). -/
def eventReply (e : HostEvent) (s : State) : Reply :=
  match e with
  | .load image => loadReply image s
  | .step r => stepReply (stepEvent (some r) s)
  | .readDirty => .dirty s.dirty
  | .snapshot => .grid s.fb
  | .readStatus => .status s.status
  | .reset | .keyPress _ | .timerTick | .dirtyClear => .nothing

/-- What happens where the host's list is empty: the host steps the block wherever STEP is enabled, its random byte a free
value; while the block waits for a key the host brings none, and the block goes on waiting, unchanged (44_timers_keyboard R193;
log entry 7). -/
def unscheduled (s : State) : Result :=
  match s.status with
  | .running | .faulted _ => stepEvent none s
  | .waitKey _ => .next s

/-- One transition of block and host: the oldest pending event of the host's list, or, with none pending, `unscheduled`. -/
def transition (s : State) : Result :=
  match s.host with
  | [] => unscheduled s
  | e :: later => applyEvent e { s with host := later }

end Sys2Proof.Machine
end

