-- ==== Sys2Proof/Machine/Step.lean ====
section
/-! DEFINITION. One step of the machine, and an instruction placed where it fetches. Both only call Machine/Cycle.lean and
Machine/Ops.lean. -/

namespace Sys2Proof.Machine

/-- One transition (Machine/Cycle.lean). -/
def step (s : State) : Host.Outcome State Fault Refusal := transition s

/-- The word `w` of an opcode table row placed so that the very next step fetches and runs it (log entry 14). -/
def State.withFetchWord (s : State) (nbits w : Nat) : State := placeWord (BitVec.ofNat 16 (w % 2 ^ nbits)) s

end Sys2Proof.Machine
end

