-- ==== Sys2Proof/Safety.lean ====
section
/-! DEFINITION. The terms claims are stated in: the ends of a run, the invariants, and what two states have in common. -/

namespace Sys2Proof.Machine

/-! ### Runs (70_reset_and_hazards) -/

/-- The launch state: RESET, then a LOAD of `image` (70_reset_and_hazards R244). -/
def launch (image : List Byte) : State := loadImage image State.reset

/-- The Idle end of a run: the word at `pc` is a jump to itself (70_reset_and_hazards R249). -/
def Idle (s : State) : Prop :=
  s.status = .running ∧ s.pc.toNat + 1 < Config.memSize ∧ s.pc.toNat ≤ 0xFFF ∧
    fetchWord s.mem s.pc.toNat = .ok (0x1000#16 ||| s.pc)

/-- The Faulted end of a run, a bad end (70_reset_and_hazards R249). -/
def Faulted (s : State) : Prop := ∃ rec, s.status = .faulted rec

/-- A step is safe where it answers a next state that is not `FAULTED`. -/
def SafeStep (s : State) : Prop := ∃ t, step s = .next t ∧ ¬ Faulted t

/-! ### Invariants -/

/-- The memory list has its canonical form. -/
def MemoryCanonical (s : State) : Prop := s.mem.wf = true

/-- The reserved region holds its reset contents, the font table among them (20_memory R60, R63). -/
def ReservedIntact (s : State) : Prop := ∀ a, a < Config.progBase → readByte s.mem a = resetByte a

/-- The bound of 10_state R24 on `pc`, with what keeps it: return addresses are at most `MEM_SIZE`, and a block that waits for
a key waits at an address it fetched a whole word from. -/
def PcBounded (s : State) : Prop :=
  s.pc.toNat ≤ 0x10FE ∧
    (∀ (k : Nat) (h : k < Config.stackDepth), s.stack[k].toNat ≤ Config.memSize) ∧
    ∀ x, s.status = .waitKey x → s.pc.toNat + 1 < Config.memSize

/-- The error record names the `pc` at which the block stands (60_exceptions R212). -/
def RecordNamesPc (s : State) : Prop := ∀ rec, s.status = .faulted rec → rec.pc = s.pc

/-- A block that waits or has faulted has been stepped, so that LOAD is no longer enabled (10_state R34). -/
def StartedOnceStopped (s : State) : Prop := s.status ≠ .running → s.started = true

/-! ### What two states have in common (frames) -/

/-- Every general register outside the list has kept its value. -/
def SameRegsBut (written : List Nibble) (s t : State) : Prop := ∀ r, r ∉ written → reg r t = reg r s

/-- Every general register has kept its value. -/
def SameRegs (s t : State) : Prop := ∀ r, reg r t = reg r s

/-- Every byte of memory reads as before. -/
def SameMemory (s t : State) : Prop := ∀ a, readByte t.mem a = readByte s.mem a

/-- Every byte of memory outside `lo` to `hi - 1` reads as before. -/
def SameMemoryOutside (lo hi : Nat) (s t : State) : Prop :=
  ∀ a, (a < lo ∨ hi ≤ a) → readByte t.mem a = readByte s.mem a

/-- Call stack and `SP` as before. -/
def SameStack (s t : State) : Prop := t.stack = s.stack ∧ t.sp = s.sp

/-- Both timers as before. -/
def SameTimers (s t : State) : Prop := t.dt = s.dt ∧ t.st = s.st

/-- Every pixel and the dirty flag as before. -/
def SameScreen (s t : State) : Prop := t.fb = s.fb ∧ t.dirty = s.dirty

/-- Status and the bits `loaded` and `started` as before. -/
def SameStatus (s t : State) : Prop := t.status = s.status ∧ t.loaded = s.loaded ∧ t.started = s.started

/-- The model's own fields as before. -/
def SameInputs (s t : State) : Prop := t.draw = s.draw ∧ t.draws = s.draws ∧ t.host = s.host

/-- Nothing but general registers and `pc` has changed. -/
def OnlyRegsAndPc (s t : State) : Prop :=
  t.i = s.i ∧ SameStack s t ∧ SameTimers s t ∧ SameMemory s t ∧ SameScreen s t ∧ SameStatus s t ∧ SameInputs s t

/-- Nothing but bytes of memory and `pc` has changed. -/
def OnlyMemoryAndPc (s t : State) : Prop :=
  SameRegs s t ∧ t.i = s.i ∧ SameStack s t ∧ SameTimers s t ∧ SameScreen s t ∧ SameStatus s t ∧ SameInputs s t

/-- Nothing but the index register and `pc` has changed. -/
def OnlyIndexAndPc (s t : State) : Prop :=
  SameRegs s t ∧ SameStack s t ∧ SameTimers s t ∧ SameMemory s t ∧ SameScreen s t ∧ SameStatus s t ∧ SameInputs s t

/-- Nothing but the timers and `pc` has changed. -/
def OnlyTimersAndPc (s t : State) : Prop :=
  SameRegs s t ∧ t.i = s.i ∧ SameStack s t ∧ SameMemory s t ∧ SameScreen s t ∧ SameStatus s t ∧ SameInputs s t

/-- Nothing but the call stack, `SP` and `pc` has changed. -/
def OnlyStackAndPc (s t : State) : Prop :=
  SameRegs s t ∧ t.i = s.i ∧ SameTimers s t ∧ SameMemory s t ∧ SameScreen s t ∧ SameStatus s t ∧ SameInputs s t

/-- Nothing but `pc` has changed. -/
def OnlyPc (s t : State) : Prop := SameRegs s t ∧ OnlyRegsAndPc s t

end Sys2Proof.Machine
end

