-- ==== Sys2Proof/Certificates/Slice0/Obligations.lean ====
section
/-! DEFINITION. The statements for the provers. Where a statement says `decodeWord (word of the row) = .ok i`, it gives the
instruction's encoding; where it says `exec i s = .next t`, it says that the instruction completes from every such `s`. -/

open Sys2Proof Sys2Proof.Machine

/-! ### Encoding and decoding (30_encoding) -/

/-- Words of 95_test_vectors decode as the spec says: one of every family, and malformed ones (30_encoding R83 to R88). -/
def Obligations.SampleWordsDecodeAsListed : Prop :=
  decodeWord 0x00E0#16 = .ok .cls ∧ decodeWord 0x00EE#16 = .ok .ret ∧ decodeWord 0x12A4#16 = .ok (.jp 0x2A4#12) ∧
    decodeWord 0x2300#16 = .ok (.call 0x300#12) ∧ decodeWord 0x3110#16 = .ok (.seImm 1#4 0x10#8) ∧
    decodeWord 0x5121#16 = .ok (.seReg 1#4 2#4 1#4) ∧ decodeWord 0x6A42#16 = .ok (.ldImm 0xA#4 0x42#8) ∧
    decodeWord 0x812E#16 = .ok (.shl 1#4 2#4) ∧ decodeWord 0xB300#16 = .ok (.jpV0 0x300#12) ∧
    decodeWord 0xD115#16 = .ok (.drw 1#4 1#4 5#4) ∧ decodeWord 0xE19E#16 = .ok (.classE 0x19E#12) ∧
    decodeWord 0xF30A#16 = .ok (.ldVxK 3#4) ∧ decodeWord 0xF265#16 = .ok (.ldRegsMem 2#4) ∧
    decodeWord 0x0123#16 = .error (.malformed 0x0123#16) ∧ decodeWord 0x800F#16 = .error (.malformed 0x800F#16) ∧
    decodeWord 0xF1A5#16 = .error (.malformed 0xF1A5#16)

/-- Decode and encode agree on every instruction, for every value of every field, as a word and as bytes in memory. -/
def Obligations.DecodeUndoesEncode : Prop :=
  ∀ i : Instr, i.wellFormed = true →
    decodeWord (encode i) = .ok i ∧ ∀ rest : List Byte, decode (encodeBytes i ++ rest) = .ok (i, rest)

/-- No two words decode to one instruction: encoding what was decoded gives the word back, ignored bits included. This is what
puts the raw word into the error record (60_exceptions R211). -/
def Obligations.EncodeUndoesDecode : Prop :=
  ∀ (w : Word) (i : Instr), decodeWord w = .ok i → encode i = w

/-- A word that 30_encoding R84 (class 0), R85 (class 8) or R86 (class 0xF) calls malformed. -/
def MalformedBySpec (w : Word) : Prop :=
  (w.toNat / 0x1000 = 0x0 ∧ w.toNat ≠ 0x00E0 ∧ w.toNat ≠ 0x00EE) ∨
    (w.toNat / 0x1000 = 0x8 ∧ w.toNat % 0x10 ∈ [0x8, 0x9, 0xA, 0xB, 0xC, 0xD, 0xF]) ∨
    (w.toNat / 0x1000 = 0xF ∧ w.toNat % 0x100 ∉ [0x07, 0x0A, 0x15, 0x18, 0x1E, 0x29, 0x33, 0x55, 0x65])

/-- Decoding is total: every word is malformed exactly where R84, R85 and R86 say so, is of class 0xE exactly where its top four
bits say so, and is an instruction otherwise (30_encoding R84, R85, R86, R88, R90). -/
def Obligations.EveryWordDecodesToExactlyOneThing : Prop :=
  ∀ w : Word,
    (decodeWord w = .error (.malformed w) ↔ MalformedBySpec w) ∧
      ((∃ nnn, decodeWord w = .ok (.classE nnn)) ↔ w.toNat / 0x1000 = 0xE) ∧
      (¬ MalformedBySpec w → ∃ i, decodeWord w = .ok i)

/-! ### The step (30_encoding R91, 20_memory R54, 60_exceptions R212 to R214) -/

/-- A step runs the decoded instruction: with no host event pending, or with a STEP event at the head of the host's list, the
step is the meaning of the instruction whose word stands at `pc`, on the state with `started` set and the STEP event's random
byte at hand; nothing else happens around it (30_encoding R91). -/
def Obligations.StepRunsTheDecodedInstruction : Prop :=
  ∀ (s : State) (i : Instr), s.status = .running → s.pc.toNat + 1 < Config.memSize →
    decodeWord (wordOfBytes (readByte s.mem s.pc.toNat) (readByte s.mem (s.pc.toNat + 1))) = .ok i → i.wellFormed = true →
    (s.host = [] → step s = exec i { s with started := true, draw := none }) ∧
      ∀ (r : Byte) (later : List HostEvent), s.host = .step r :: later →
        step s = exec i { s with started := true, draw := some r, host := later }

/-- A fetch reads the two bytes at `a` and `a + 1`, high byte first, or names the first missing byte (20_memory R54). -/
def Obligations.FetchIsBigEndianAndGuarded : Prop :=
  ∀ (m : Memory) (a : Nat),
    (Config.memSize ≤ a → fetchWord m a = .error a) ∧
      (Config.memSize = a + 1 → fetchWord m a = .error (a + 1)) ∧
      (a + 1 < Config.memSize →
        ∃ w, fetchWord m a = .ok w ∧ w.toNat = (readByte m a).toNat * 0x100 + (readByte m (a + 1)).toNat)

/-- A step that cannot fetch, and a step that fetches a malformed word, each take their error: the status alone changes, beside
`started` and the model's own fields (60_exceptions R212, R214; 30_encoding R91). The step is a STEP with no host event pending,
or with a STEP event at the head of the host's list, which is the model's own (log entries 6 and 9). -/
def Obligations.FetchAndDecodeErrorsAreTaken : Prop :=
  ∀ (s : State) (draw : Option Byte) (later : List HostEvent), s.status = .running →
    ((s.host = [] ∧ draw = none ∧ later = []) ∨ ∃ r, draw = some r ∧ s.host = .step r :: later) →
    (∀ bad, fetchWord s.mem s.pc.toNat = .error bad →
        step s = .next
          { s with
            started := true, draw := draw, host := later,
            status := .faulted ⟨.fetchOutOfRange, none, s.pc, some bad⟩ }) ∧
      ∀ w, fetchWord s.mem s.pc.toNat = .ok w → MalformedBySpec w →
        step s = .next
          { s with
            started := true, draw := draw, host := later,
            status := .faulted ⟨.malformedInstruction, some w, s.pc, none⟩ }

/-- In `FAULTED` a STEP changes nothing, no event but RESET changes the status, RESET leaves it, the host still reads picture,
dirty flag and record, and TIMER_TICK and DIRTY_CLEAR still apply (60_exceptions R213). -/
def Obligations.FaultedIsLeftOnlyByReset : Prop :=
  ∀ (s : State) (rec : ErrorRecord), s.status = .faulted rec →
    (∀ r, applyEvent (.step r) s = .next s) ∧
      (∀ e t, e ≠ .reset → applyEvent e s = .next t → t.status = .faulted rec) ∧
      (applyEvent .readStatus s = .next s ∧ eventReply .readStatus s = .status (.faulted rec)) ∧
      (applyEvent .snapshot s = .next s ∧ eventReply .snapshot s = .grid s.fb) ∧
      (applyEvent .readDirty s = .next s ∧ eventReply .readDirty s = .dirty s.dirty) ∧
      (∃ t, applyEvent .reset s = .next t ∧ t.status = .running) ∧
      (∃ t, applyEvent .timerTick s = .next t ∧ t.dt.toNat = s.dt.toNat - 1 ∧ t.st.toNat = s.st.toNat - 1) ∧
      ∃ t, applyEvent .dirtyClear s = .next t ∧ t.dirty = false

/-- Whole machine: an instruction that raises keeps `pc`, every register, the stack, the timers, the screen, `loaded`, `started`
and the model's own fields, and its record holds its raw word and its address (60_exceptions R211, R212). Memory may keep the
bytes of a store cut short. -/
def Obligations.ErrorsKeepPcAndNameTheirInstruction : Prop :=
  ∀ (i : Instr) (s t : State) (rec : ErrorRecord),
    s.status = .running → exec i s = .next t → t.status = .faulted rec →
    rec.word = some (encode i) ∧ rec.pc = s.pc ∧ t.pc = s.pc ∧ SameRegs s t ∧ t.i = s.i ∧ SameStack s t ∧ SameTimers s t ∧
      SameScreen s t ∧ t.loaded = s.loaded ∧ t.started = s.started ∧ SameInputs s t

/-- Whole machine: each cause comes only from the instructions 60_exceptions R210 names, and the record has an address exactly
for the memory errors (R211). -/
def Obligations.EachCauseHasItsInstructions : Prop :=
  ∀ (i : Instr) (s t : State) (rec : ErrorRecord),
    s.status = .running → exec i s = .next t → t.status = .faulted rec →
    ((rec.cause = .outOfBounds ∧ rec.addr.isSome = true ∧ ∃ x, i = .ldB x ∨ i = .ldMemRegs x) ∨
      (rec.cause = .readOutOfRange ∧ rec.addr.isSome = true ∧ ((∃ x y n, i = .drw x y n) ∨ ∃ x, i = .ldRegsMem x)) ∨
      (rec.cause = .stackOverflow ∧ rec.addr = none ∧ ∃ nnn, i = .call nnn) ∨
      (rec.cause = .stackUnderflow ∧ rec.addr = none ∧ i = .ret) ∨
      (rec.cause = .unimplemented ∧ rec.addr = none ∧ ∃ nnn, i = .classE nnn))

/-- Whole machine: every instruction answers a next state, errors being taken and not stops (60_exceptions R212; 30_encoding R90),
and so does every step with an empty host's list. What a step does with an empty list (log entry 6), and that a block waiting
for a key then answers the same state (log entry 7), are the model's choices; the model's own two stops, on events the list
names, are the subject of OnlyEventsNotEnabledStop. -/
def Obligations.InstructionsAndUnscheduledStepsAnswer : Prop :=
  (∀ (i : Instr) (s : State), ∃ t, exec i s = .next t) ∧ ∀ s : State, s.host = [] → ∃ t, step s = .next t

/-! ### Display (40_display) -/

/-- `CLS` (40_display R106, R100). -/
def Obligations.ClsClearsScreenAndDirty : Prop :=
  decodeWord 0x00E0#16 = .ok .cls ∧
    ∀ s : State, ∃ t, exec .cls s = .next t ∧ (∀ px py, pix t.fb px py = false) ∧ t.dirty = false ∧ t.pc = s.pc + 2 ∧
      SameRegs s t ∧ t.i = s.i ∧ SameStack s t ∧ SameTimers s t ∧ SameMemory s t ∧ SameStatus s t ∧ SameInputs s t

/-- The loops of `BlitSprite` (40_display R101) are one pixelwise XOR, clipped and not wrapped (R102, R105), and the collision is
a hit, under either collision rule (R103), at some visited pixel. -/
def Obligations.BlitIsClippedPixelwiseXor : Prop :=
  ∀ (rule : CollisionRule) (bytes : List Byte) (x y : Byte) (g : Grid),
    (∀ px py, px < Config.dispW → py < Config.dispH →
      pix (blitSprite rule bytes x y g).1 px py =
        if x.toNat ≤ px ∧ px < x.toNat + 8 ∧ y.toNat ≤ py ∧ py < y.toNat + bytes.length then
          (pix g px py ^^ (bytes.getD (py - y.toNat) 0).getLsbD (7 - (px - x.toNat)))
        else pix g px py) ∧
      ((blitSprite rule bytes x y g).2 = true ↔
        ∃ z c, z < bytes.length ∧ c < 8 ∧ y.toNat + z < Config.dispH ∧ x.toNat + c < Config.dispW ∧
          collisionHit rule (pix g (x.toNat + c) (y.toNat + z)) ((bytes.getD z 0).getLsbD (7 - c)) = true)

/-- `DRW` (40_display R107): where its block read stays inside memory, or reads nothing, every pixel its rows cover is XORed with
its sprite bit, `VF` reports whether a covered pixel was set before (`OLD_SET`), and `dirty` is set whatever was drawn (R104);
otherwise the error is taken with no other effect. -/
def Obligations.DrwDrawsOrFaults : Prop :=
  ∀ (x y n : Nibble) (s : State),
    decodeWord (0xD#4 ++ x ++ y ++ n) = .ok (.drw x y n) ∧
      (n.toNat = 0 ∨ s.i.toNat + n.toNat ≤ Config.memSize →
        ∃ t, exec (.drw x y n) s = .next t ∧
          (∀ px py, px < Config.dispW → py < Config.dispH →
            pix t.fb px py =
              if (reg x s).toNat ≤ px ∧ px < (reg x s).toNat + 8 ∧ (reg y s).toNat ≤ py ∧
                  py < (reg y s).toNat + n.toNat then
                (pix s.fb px py ^^
                  (readByte s.mem (s.i.toNat + (py - (reg y s).toNat))).getLsbD (7 - (px - (reg x s).toNat)))
              else pix s.fb px py) ∧
          ((∃ px py, px < Config.dispW ∧ py < Config.dispH ∧ (reg x s).toNat ≤ px ∧ px < (reg x s).toNat + 8 ∧
              (reg y s).toNat ≤ py ∧ py < (reg y s).toNat + n.toNat ∧ pix s.fb px py = true) → reg 0xF#4 t = 1) ∧
          ((∀ px py, px < Config.dispW → py < Config.dispH → (reg x s).toNat ≤ px → px < (reg x s).toNat + 8 →
              (reg y s).toNat ≤ py → py < (reg y s).toNat + n.toNat → pix s.fb px py = false) → reg 0xF#4 t = 0) ∧
          t.dirty = true ∧ t.pc = s.pc + 2 ∧ SameRegsBut [0xF#4] s t ∧ t.i = s.i ∧ SameStack s t ∧ SameTimers s t ∧
          SameMemory s t ∧ SameStatus s t ∧ SameInputs s t) ∧
      (0 < n.toNat → Config.memSize < s.i.toNat + n.toNat →
        exec (.drw x y n) s = .next
          { s with
            status := .faulted ⟨.readOutOfRange, some (0xD#4 ++ x ++ y ++ n), s.pc, some (max s.i.toNat Config.memSize)⟩ })

/-! ### Control transfer (41_control) -/

/-- `RET` (41_control R120, 10_state R27). -/
def Obligations.RetPopsOrFaults : Prop :=
  decodeWord 0x00EE#16 = .ok .ret ∧
    ∀ s : State,
      (∀ (h : s.sp.val - 1 < Config.stackDepth), 0 < s.sp.val →
        ∃ t, exec .ret s = .next t ∧ t.pc = s.stack[s.sp.val - 1] ∧ t.sp.val = s.sp.val - 1 ∧ t.stack = s.stack ∧
          OnlyStackAndPc s t) ∧
        (s.sp.val = 0 →
          exec .ret s = .next { s with status := .faulted ⟨.stackUnderflow, some 0x00EE#16, s.pc, none⟩ })

/-- `JP nnn` (41_control R121). -/
def Obligations.JpSetsPc : Prop :=
  ∀ (nnn : Addr) (s : State),
    decodeWord (0x1#4 ++ nnn) = .ok (.jp nnn) ∧
      ∃ t, exec (.jp nnn) s = .next t ∧ t.pc.toNat = nnn.toNat ∧ OnlyPc s t

/-- `CALL nnn` (41_control R122, 10_state R26). -/
def Obligations.CallPushesOrFaults : Prop :=
  ∀ (nnn : Addr) (s : State),
    decodeWord (0x2#4 ++ nnn) = .ok (.call nnn) ∧
      (∀ h : s.sp.val < Config.stackDepth,
        ∃ t, exec (.call nnn) s = .next t ∧ t.pc.toNat = nnn.toNat ∧ t.sp.val = s.sp.val + 1 ∧
          t.stack[s.sp.val] = s.pc + 2 ∧
          (∀ (k : Nat) (hk : k < Config.stackDepth), k ≠ s.sp.val → t.stack[k] = s.stack[k]) ∧ OnlyStackAndPc s t) ∧
      (s.sp.val = Config.stackDepth →
        exec (.call nnn) s = .next { s with status := .faulted ⟨.stackOverflow, some (0x2#4 ++ nnn), s.pc, none⟩ })

/-- A `CALL` and the `RET` after it: execution resumes after the call and the stack is as deep as before (10_state R27,
41_control R120). -/
def Obligations.RetReturnsPastItsCall : Prop :=
  ∀ (nnn : Addr) (s : State), s.sp.val < Config.stackDepth →
    ∃ t u, exec (.call nnn) s = .next t ∧ exec .ret t = .next u ∧ u.pc = s.pc + 2 ∧ u.sp = s.sp ∧
      (∀ (k : Nat) (hk : k < Config.stackDepth), k < s.sp.val → u.stack[k] = s.stack[k]) ∧ OnlyStackAndPc s u

/-- The skips on an immediate (41_control R123, R124). -/
def Obligations.SkipsOnImmediate : Prop :=
  ∀ (x : Nibble) (kk : Byte) (s : State),
    decodeWord (0x3#4 ++ x ++ kk) = .ok (.seImm x kk) ∧ decodeWord (0x4#4 ++ x ++ kk) = .ok (.sneImm x kk) ∧
      ∃ t u, exec (.seImm x kk) s = .next t ∧ exec (.sneImm x kk) s = .next u ∧ OnlyPc s t ∧ OnlyPc s u ∧
        (reg x s = kk → t.pc = s.pc + 4 ∧ u.pc = s.pc + 2) ∧ (reg x s ≠ kk → t.pc = s.pc + 2 ∧ u.pc = s.pc + 4)

/-- The skips on two registers, for every value of the ignored nibble (41_control R125, R126). -/
def Obligations.SkipsOnRegisters : Prop :=
  ∀ (x y n : Nibble) (s : State),
    decodeWord (0x5#4 ++ x ++ y ++ n) = .ok (.seReg x y n) ∧ decodeWord (0x9#4 ++ x ++ y ++ n) = .ok (.sneReg x y n) ∧
      ∃ t u, exec (.seReg x y n) s = .next t ∧ exec (.sneReg x y n) s = .next u ∧ OnlyPc s t ∧ OnlyPc s u ∧
        (reg x s = reg y s → t.pc = s.pc + 4 ∧ u.pc = s.pc + 2) ∧
        (reg x s ≠ reg y s → t.pc = s.pc + 2 ∧ u.pc = s.pc + 4)

/-- `JP V0, nnn`: the sum is not masked (41_control R127). -/
def Obligations.JpV0AddsV0 : Prop :=
  ∀ (nnn : Addr) (s : State),
    decodeWord (0xB#4 ++ nnn) = .ok (.jpV0 nnn) ∧
      ∃ t, exec (.jpV0 nnn) s = .next t ∧ t.pc.toNat = nnn.toNat + (reg 0#4 s).toNat ∧ t.pc.toNat ≤ 0x10FE ∧ OnlyPc s t

/-! ### Registers and ALU (42_alu) -/

/-- `LD Vx, kk` (42_alu R142). -/
def Obligations.LdImmWritesImmediate : Prop :=
  ∀ (x : Nibble) (kk : Byte) (s : State),
    decodeWord (0x6#4 ++ x ++ kk) = .ok (.ldImm x kk) ∧
      ∃ t, exec (.ldImm x kk) s = .next t ∧ reg x t = kk ∧ t.pc = s.pc + 2 ∧ SameRegsBut [x] s t ∧ OnlyRegsAndPc s t

/-- `ADD Vx, kk`: wraps modulo 256 and writes no flag (42_alu R143). -/
def Obligations.AddImmWrapsWithoutFlag : Prop :=
  ∀ (x : Nibble) (kk : Byte) (s : State),
    decodeWord (0x7#4 ++ x ++ kk) = .ok (.addImm x kk) ∧
      ∃ t, exec (.addImm x kk) s = .next t ∧ (reg x t).toNat = ((reg x s).toNat + kk.toNat) % 256 ∧ t.pc = s.pc + 2 ∧
        SameRegsBut [x] s t ∧ OnlyRegsAndPc s t

/-- `LD Vx, Vy` (42_alu R144). -/
def Obligations.LdRegCopies : Prop :=
  ∀ (x y : Nibble) (s : State),
    decodeWord (0x8#4 ++ x ++ y ++ 0x0#4) = .ok (.ldReg x y) ∧
      ∃ t, exec (.ldReg x y) s = .next t ∧ reg x t = reg y s ∧ t.pc = s.pc + 2 ∧ SameRegsBut [x] s t ∧ OnlyRegsAndPc s t

/-- `OR`, `AND` and `XOR`, bit by bit, `VF` not reset (42_alu R145, R146, R147). -/
def Obligations.BitwiseOpsActBitByBit : Prop :=
  ∀ (x y : Nibble) (s : State),
    decodeWord (0x8#4 ++ x ++ y ++ 0x1#4) = .ok (.orReg x y) ∧ decodeWord (0x8#4 ++ x ++ y ++ 0x2#4) = .ok (.andReg x y) ∧
      decodeWord (0x8#4 ++ x ++ y ++ 0x3#4) = .ok (.xorReg x y) ∧
      ∃ t u v, exec (.orReg x y) s = .next t ∧ exec (.andReg x y) s = .next u ∧ exec (.xorReg x y) s = .next v ∧
        (∀ k, k < 8 →
          (reg x t).getLsbD k = ((reg x s).getLsbD k || (reg y s).getLsbD k) ∧
            (reg x u).getLsbD k = ((reg x s).getLsbD k && (reg y s).getLsbD k) ∧
            (reg x v).getLsbD k = ((reg x s).getLsbD k ^^ (reg y s).getLsbD k)) ∧
        (t.pc = s.pc + 2 ∧ SameRegsBut [x] s t ∧ OnlyRegsAndPc s t) ∧
        (u.pc = s.pc + 2 ∧ SameRegsBut [x] s u ∧ OnlyRegsAndPc s u) ∧
        v.pc = s.pc + 2 ∧ SameRegsBut [x] s v ∧ OnlyRegsAndPc s v

/-- `ADD Vx, Vy`: the sum of the old values, and the carry in `VF` unless `x` is 15 (42_alu R148). -/
def Obligations.AddRegGivesSumAndCarry : Prop :=
  ∀ (x y : Nibble) (s : State),
    decodeWord (0x8#4 ++ x ++ y ++ 0x4#4) = .ok (.addReg x y) ∧
      ∃ t, exec (.addReg x y) s = .next t ∧ (reg x t).toNat = ((reg x s).toNat + (reg y s).toNat) % 256 ∧
        (x ≠ 0xF#4 → reg 0xF#4 t = if 255 < (reg x s).toNat + (reg y s).toNat then 1 else 0) ∧ t.pc = s.pc + 2 ∧
        SameRegsBut [x, 0xF#4] s t ∧ OnlyRegsAndPc s t

/-- `SUB Vx, Vy`: the strict NOT-borrow flag first, then the difference, which reads the flag just written wherever `x` or `y` is
15 (42_alu R149, R140). -/
def Obligations.SubWritesFlagThenDifference : Prop :=
  ∀ (x y : Nibble) (s : State) (flag : Byte), (flag = if (reg y s).toNat < (reg x s).toNat then 1 else 0) →
    decodeWord (0x8#4 ++ x ++ y ++ 0x5#4) = .ok (.sub x y) ∧
      ∃ t, exec (.sub x y) s = .next t ∧
        (reg x t = (if x = 0xF#4 then flag else reg x s) - (if y = 0xF#4 then flag else reg y s)) ∧
        (x ≠ 0xF#4 → reg 0xF#4 t = flag) ∧ t.pc = s.pc + 2 ∧ SameRegsBut [x, 0xF#4] s t ∧ OnlyRegsAndPc s t

/-- `SHR Vx`, for every value of the ignored `y`: the low bit to `VF` first, then the halved `Vx`, which reads the flag just
written where `x` is 15 (42_alu R150). -/
def Obligations.ShrWritesLowBitThenHalves : Prop :=
  ∀ (x y : Nibble) (s : State),
    decodeWord (0x8#4 ++ x ++ y ++ 0x6#4) = .ok (.shr x y) ∧
      ∃ t, exec (.shr x y) s = .next t ∧
        (x ≠ 0xF#4 → (reg x t).toNat = (reg x s).toNat / 2 ∧ (reg 0xF#4 t).toNat = (reg x s).toNat % 2) ∧
        (x = 0xF#4 → reg 0xF#4 t = 0) ∧ t.pc = s.pc + 2 ∧ SameRegsBut [x, 0xF#4] s t ∧ OnlyRegsAndPc s t

/-- `SUBN Vx, Vy`, as `SUB` with the operands exchanged (42_alu R151, R140). -/
def Obligations.SubnWritesFlagThenDifference : Prop :=
  ∀ (x y : Nibble) (s : State) (flag : Byte), (flag = if (reg x s).toNat < (reg y s).toNat then 1 else 0) →
    decodeWord (0x8#4 ++ x ++ y ++ 0x7#4) = .ok (.subn x y) ∧
      ∃ t, exec (.subn x y) s = .next t ∧
        (reg x t = (if y = 0xF#4 then flag else reg y s) - (if x = 0xF#4 then flag else reg x s)) ∧
        (x ≠ 0xF#4 → reg 0xF#4 t = flag) ∧ t.pc = s.pc + 2 ∧ SameRegsBut [x, 0xF#4] s t ∧ OnlyRegsAndPc s t

/-- `SHL Vx`, for every value of the ignored `y`: the high bit to `VF` as 0x80 or 0x00, then the doubled `Vx`, which reads the
flag just written where `x` is 15 (42_alu R152). -/
def Obligations.ShlWritesHighBitThenDoubles : Prop :=
  ∀ (x y : Nibble) (s : State),
    decodeWord (0x8#4 ++ x ++ y ++ 0xE#4) = .ok (.shl x y) ∧
      ∃ t, exec (.shl x y) s = .next t ∧
        (x ≠ 0xF#4 →
          (reg x t).toNat = (reg x s).toNat * 2 % 256 ∧ reg 0xF#4 t = if 128 ≤ (reg x s).toNat then 0x80 else 0) ∧
        (x = 0xF#4 → reg 0xF#4 t = 0) ∧ t.pc = s.pc + 2 ∧ SameRegsBut [x, 0xF#4] s t ∧ OnlyRegsAndPc s t

/-- `RND Vx, kk`: the byte drawn, whatever it is, masked; it is the STEP event's byte, or else the free value whose turn it is
(42_alu R153, 60_exceptions R222). The counter of draws, the model's own field, moves on. -/
def Obligations.RndMasksTheDrawnByte : Prop :=
  ∀ (x : Nibble) (kk : Byte) (s : State) (r : Byte),
    (s.draw = some r ∨ (s.draw = none ∧ r = Config.randomByte s.draws)) →
    decodeWord (0xC#4 ++ x ++ kk) = .ok (.rnd x kk) ∧
      ∃ t, exec (.rnd x kk) s = .next t ∧ (∀ k, k < 8 → (reg x t).getLsbD k = (r.getLsbD k && kk.getLsbD k)) ∧
        t.pc = s.pc + 2 ∧ SameRegsBut [x] s t ∧ t.i = s.i ∧ SameStack s t ∧ SameTimers s t ∧ SameMemory s t ∧
        SameScreen s t ∧ SameStatus s t ∧ t.draw = s.draw ∧ t.draws = s.draws + 1 ∧ t.host = s.host

/-! ### Index register and memory (43_index_memory) -/

/-- `LD I, nnn` (43_index_memory R170). -/
def Obligations.LdIWritesAddress : Prop :=
  ∀ (nnn : Addr) (s : State),
    decodeWord (0xA#4 ++ nnn) = .ok (.ldI nnn) ∧
      ∃ t, exec (.ldI nnn) s = .next t ∧ t.i.toNat = nnn.toNat ∧ t.pc = s.pc + 2 ∧ OnlyIndexAndPc s t

/-- `ADD I, Vx`: wraps modulo 2^16 and writes no flag (43_index_memory R171). -/
def Obligations.AddIWrapsWithoutFlag : Prop :=
  ∀ (x : Nibble) (s : State),
    decodeWord (0xF#4 ++ x ++ 0x1E#8) = .ok (.addI x) ∧
      ∃ t, exec (.addI x) s = .next t ∧ t.i.toNat = (s.i.toNat + (reg x s).toNat) % 0x10000 ∧ t.pc = s.pc + 2 ∧
        OnlyIndexAndPc s t

/-- `LD F, Vx`: the glyph's address, `Vx` not masked, never reduced (43_index_memory R172). -/
def Obligations.LdFPointsAtGlyph : Prop :=
  ∀ (x : Nibble) (s : State),
    decodeWord (0xF#4 ++ x ++ 0x29#8) = .ok (.ldF x) ∧
      ∃ t, exec (.ldF x) s = .next t ∧ t.i.toNat = 0x50 + (reg x s).toNat * 5 ∧ t.pc = s.pc + 2 ∧ OnlyIndexAndPc s t

/-- `LD B, Vx` (43_index_memory R173): three digits where all three addresses pass the guard; nothing written and the error where
the first is below `PROG_BASE`; the digits that fit and the error where they run off the end of memory. -/
def Obligations.LdBStoresDigitsOrFaults : Prop :=
  ∀ (x : Nibble) (s : State) (a : Nat), s.mem.wf = true → effectiveAddress s 0 = a →
    decodeWord (0xF#4 ++ x ++ 0x33#8) = .ok (.ldB x) ∧
      (Config.progBase ≤ a → a + 3 ≤ Config.memSize →
        ∃ t, exec (.ldB x) s = .next t ∧ (readByte t.mem a).toNat = (reg x s).toNat / 100 ∧
          (readByte t.mem (a + 1)).toNat = (reg x s).toNat / 10 % 10 ∧
          (readByte t.mem (a + 2)).toNat = (reg x s).toNat % 10 ∧ SameMemoryOutside a (a + 3) s t ∧ t.pc = s.pc + 2 ∧
          OnlyMemoryAndPc s t) ∧
      (a < Config.progBase →
        exec (.ldB x) s = .next
          { s with status := .faulted ⟨.outOfBounds, some (0xF#4 ++ x ++ 0x33#8), s.pc, some a⟩ }) ∧
      (Config.memSize < a + 3 →
        ∃ t, exec (.ldB x) s = .next t ∧
          t.status = .faulted ⟨.outOfBounds, some (0xF#4 ++ x ++ 0x33#8), s.pc, some (max a Config.memSize)⟩ ∧
          (a < Config.memSize → (readByte t.mem a).toNat = (reg x s).toNat / 100) ∧
          (a + 1 < Config.memSize → (readByte t.mem (a + 1)).toNat = (reg x s).toNat / 10 % 10) ∧
          SameMemoryOutside a Config.memSize s t ∧ t.pc = s.pc ∧ SameRegs s t ∧ t.i = s.i ∧ SameStack s t ∧
          SameTimers s t ∧ SameScreen s t ∧ t.loaded = s.loaded ∧ t.started = s.started ∧ SameInputs s t)

/-- `LD [I], Vx` (43_index_memory R174): `V0` to `Vx` in ascending order, with the same three outcomes as `LD B`. -/
def Obligations.LdMemRegsStoresOrFaults : Prop :=
  ∀ (x : Nibble) (s : State) (a : Nat), s.mem.wf = true → effectiveAddress s 0 = a →
    decodeWord (0xF#4 ++ x ++ 0x55#8) = .ok (.ldMemRegs x) ∧
      (Config.progBase ≤ a → a + x.toNat + 1 ≤ Config.memSize →
        ∃ t, exec (.ldMemRegs x) s = .next t ∧
          (∀ k : Nibble, k.toNat ≤ x.toNat → readByte t.mem (a + k.toNat) = reg k s) ∧
          SameMemoryOutside a (a + x.toNat + 1) s t ∧ t.pc = s.pc + 2 ∧ OnlyMemoryAndPc s t) ∧
      (a < Config.progBase →
        exec (.ldMemRegs x) s = .next
          { s with status := .faulted ⟨.outOfBounds, some (0xF#4 ++ x ++ 0x55#8), s.pc, some a⟩ }) ∧
      (Config.memSize < a + x.toNat + 1 →
        ∃ t, exec (.ldMemRegs x) s = .next t ∧
          t.status = .faulted ⟨.outOfBounds, some (0xF#4 ++ x ++ 0x55#8), s.pc, some (max a Config.memSize)⟩ ∧
          (∀ k : Nibble, k.toNat ≤ x.toNat → a + k.toNat < Config.memSize →
            readByte t.mem (a + k.toNat) = reg k s) ∧
          SameMemoryOutside a Config.memSize s t ∧ t.pc = s.pc ∧ SameRegs s t ∧ t.i = s.i ∧ SameStack s t ∧
          SameTimers s t ∧ SameScreen s t ∧ t.loaded = s.loaded ∧ t.started = s.started ∧ SameInputs s t)

/-- `LD Vx, [I]` (43_index_memory R175): `V0` to `Vx` from memory, or, where the block leaves memory, the error and no register
written. -/
def Obligations.LdRegsMemLoadsOrFaults : Prop :=
  ∀ (x : Nibble) (s : State),
    decodeWord (0xF#4 ++ x ++ 0x65#8) = .ok (.ldRegsMem x) ∧
      (s.i.toNat + x.toNat < Config.memSize →
        ∃ t, exec (.ldRegsMem x) s = .next t ∧
          (∀ k : Nibble, k.toNat ≤ x.toNat → reg k t = readByte s.mem (s.i.toNat + k.toNat)) ∧
          (∀ k : Nibble, x.toNat < k.toNat → reg k t = reg k s) ∧ t.pc = s.pc + 2 ∧ OnlyRegsAndPc s t) ∧
      (Config.memSize ≤ s.i.toNat + x.toNat →
        exec (.ldRegsMem x) s = .next
          { s with
            status := .faulted ⟨.readOutOfRange, some (0xF#4 ++ x ++ 0x65#8), s.pc, some (max s.i.toNat Config.memSize)⟩ })

/-! ### Timers, keyboard and class 0xE (44_timers_keyboard) -/

/-- `LD Vx, DT` (44_timers_keyboard R190). -/
def Obligations.LdVxDtReadsTimer : Prop :=
  ∀ (x : Nibble) (s : State),
    decodeWord (0xF#4 ++ x ++ 0x07#8) = .ok (.ldVxDt x) ∧
      ∃ t, exec (.ldVxDt x) s = .next t ∧ reg x t = s.dt ∧ t.pc = s.pc + 2 ∧ SameRegsBut [x] s t ∧ OnlyRegsAndPc s t

/-- `LD DT, Vx` and `LD ST, Vx`, each leaving the other timer as it was (44_timers_keyboard R191, R192). -/
def Obligations.TimersAreSetFromRegister : Prop :=
  ∀ (x : Nibble) (s : State),
    decodeWord (0xF#4 ++ x ++ 0x15#8) = .ok (.ldDt x) ∧ decodeWord (0xF#4 ++ x ++ 0x18#8) = .ok (.ldSt x) ∧
      ∃ t u, exec (.ldDt x) s = .next t ∧ exec (.ldSt x) s = .next u ∧
        (t.dt = reg x s ∧ t.st = s.st ∧ t.pc = s.pc + 2 ∧ OnlyTimersAndPc s t) ∧
        u.st = reg x s ∧ u.dt = s.dt ∧ u.pc = s.pc + 2 ∧ OnlyTimersAndPc s u

/-- `LD Vx, K`, the STEP: the block waits, and nothing else changes (44_timers_keyboard R193). -/
def Obligations.LdVxKSuspends : Prop :=
  ∀ (x : Nibble) (s : State),
    decodeWord (0xF#4 ++ x ++ 0x0A#8) = .ok (.ldVxK x) ∧
      ∃ t, exec (.ldVxK x) s = .next t ∧ t.status = .waitKey x ∧ t.pc = s.pc ∧ SameRegs s t ∧ t.i = s.i ∧ SameStack s t ∧
        SameTimers s t ∧ SameMemory s t ∧ SameScreen s t ∧ t.loaded = s.loaded ∧ t.started = s.started ∧ SameInputs s t

/-- Class 0xE: every word of it takes the error `Unimplemented`, and nothing but the status changes (44_timers_keyboard R195). -/
def Obligations.ClassETakesUnimplemented : Prop :=
  ∀ (nnn : Addr) (s : State),
    decodeWord (0xE#4 ++ nnn) = .ok (.classE nnn) ∧
      exec (.classE nnn) s = .next { s with status := .faulted ⟨.unimplemented, some (0xE#4 ++ nnn), s.pc, none⟩ }

/-- KEY_PRESS completes a pending `LD Vx, K`, and otherwise changes nothing (44_timers_keyboard R194). -/
def Obligations.KeyPressCompletesTheWait : Prop :=
  ∀ (key : Nibble) (s : State),
    (∀ x, s.status = .waitKey x →
      ∃ t, applyEvent (.keyPress key) s = .next t ∧ (reg x t).toNat = key.toNat ∧ t.pc = s.pc + 2 ∧ t.status = .running ∧
        SameRegsBut [x] s t ∧ t.i = s.i ∧ SameStack s t ∧ SameTimers s t ∧ SameMemory s t ∧ SameScreen s t ∧
        t.loaded = s.loaded ∧ t.started = s.started ∧ SameInputs s t) ∧
      ((∀ x, s.status ≠ .waitKey x) → applyEvent (.keyPress key) s = .next s)

/-- The wait is left only by KEY_PRESS or RESET, and keeps everything but what TIMER_TICK counts and DIRTY_CLEAR clears
(60_exceptions R224, 44_timers_keyboard R193). -/
def Obligations.WaitIsLeftOnlyByKeyOrReset : Prop :=
  ∀ (s t : State) (x : Nibble) (e : HostEvent), s.status = .waitKey x → s.started = true → e ≠ .reset →
    (∀ key, e ≠ .keyPress key) → applyEvent e s = .next t →
    t.status = .waitKey x ∧ t.pc = s.pc ∧ SameRegs s t ∧ t.i = s.i ∧ SameStack s t ∧ SameMemory s t ∧ t.fb = s.fb ∧
      (e ≠ .timerTick → SameTimers s t) ∧ (e ≠ .dirtyClear → t.dirty = s.dirty) ∧ t.loaded = s.loaded ∧ t.started = s.started

/-! ### The host's events (60_exceptions R220, 20_memory R61, 70_reset_and_hazards R240) -/

/-- LOAD, where it is enabled: copied in full from `PROG_BASE`, past the write guard, or, where it does not fit, refused whole with
the reply `CapacityExceeded` and nothing changed (20_memory R61, R62). -/
def Obligations.LoadCopiesInFullOrFails : Prop :=
  ∀ (image : List Byte) (s : State), s.mem.wf = true → s.loaded = false → s.started = false →
    (image.length ≤ 3584 →
      eventReply (.load image) s = .ok ∧
        ∃ t, applyEvent (.load image) s = .next t ∧
          (∀ k, k < image.length → readByte t.mem (Config.progBase + k) = image.getD k 0) ∧
          SameMemoryOutside Config.progBase (Config.progBase + image.length) s t ∧ t.loaded = true ∧
          t.started = false ∧ t.status = s.status ∧ t.pc = s.pc ∧ SameRegs s t ∧ t.i = s.i ∧ SameStack s t ∧
          SameTimers s t ∧ SameScreen s t ∧ SameInputs s t) ∧
      (3584 < image.length →
        eventReply (.load image) s = .capacityExceeded ∧ applyEvent (.load image) s = .next s)

/-- Where the host's list names an event that is not enabled, the model stops, by name, and nowhere else: a STEP in `WAIT_KEY` and a
LOAD after a LOAD or a STEP. With no event pending a block that waits or has faulted stays as it is. These stops and the empty
list's meaning are the model's choices (log entries 5 to 8); that these events are not enabled is the spec's (60_exceptions
R220). -/
def Obligations.OnlyEventsNotEnabledStop : Prop :=
  ∀ s : State,
    (∀ x, s.status = .waitKey x →
        (∀ r, applyEvent (.step r) s = .fault .stepNotEnabled) ∧ (s.host = [] → step s = .next s)) ∧
      (∀ rec, s.status = .faulted rec → s.host = [] → step s = .next s) ∧
      (∀ image, s.loaded = true ∨ s.started = true → applyEvent (.load image) s = .refused .loadNotEnabled) ∧
      ∀ e, (∀ t, applyEvent e s ≠ .next t) →
        ((∃ r, e = .step r) ∧ ∃ x, s.status = .waitKey x) ∨
          ((∃ image, e = .load image) ∧ (s.loaded = true ∨ s.started = true))

/-- TIMER_TICK, in every status: each timer down by one, stopping at zero (60_exceptions R218). -/
def Obligations.TimerTickCountsBothDown : Prop :=
  ∀ s : State, ∃ t, applyEvent .timerTick s = .next t ∧ t.dt.toNat = s.dt.toNat - 1 ∧ t.st.toNat = s.st.toNat - 1 ∧
    t.pc = s.pc ∧ OnlyTimersAndPc s t

/-- Every value that 70_reset_and_hazards R240 gives at reset; the font table is the parameter `fontGlyphs`. -/
def HasResetValues (t : State) : Prop :=
  (∀ r, reg r t = 0) ∧ t.i = 0 ∧ (∀ (k : Nat) (h : k < Config.stackDepth), t.stack[k] = 0) ∧ t.sp.val = 0 ∧ t.dt = 0 ∧
    t.st = 0 ∧ (∀ d, d < 80 → readByte t.mem (0x50 + d) = fontGlyphs.getD d 0) ∧
    (∀ a, (a < 0x50 ∨ 0xA0 ≤ a) → readByte t.mem a = 0) ∧ (∀ px py, pix t.fb px py = false) ∧ t.dirty = false ∧
    t.pc.toNat = 0x200 ∧ t.status = .running ∧ t.loaded = false ∧ t.started = false

/-- RESET, from any state, and the machine's start: every piece of state at its reset value (70_reset_and_hazards R240). -/
def Obligations.ResetGivesEveryValue : Prop :=
  HasResetValues State.reset ∧ ∀ s : State, ∃ t, applyEvent .reset s = .next t ∧ HasResetValues t

/-- The renderer's and the host's reads change nothing and answer the state; DIRTY_CLEAR clears the flag alone; and a STEP answers
ok, or the record of the error it ends in (60_exceptions R220, R223). That a STEP in `FAULTED` answers the record that stands
there, and one that suspends answers ok, are the model's readings (log entry 18). -/
def Obligations.ReadsAnswerAndChangeNothing : Prop :=
  ∀ s : State,
    (applyEvent .readDirty s = .next s ∧ eventReply .readDirty s = .dirty s.dirty) ∧
      (applyEvent .snapshot s = .next s ∧ eventReply .snapshot s = .grid s.fb) ∧
      (applyEvent .readStatus s = .next s ∧ eventReply .readStatus s = .status s.status) ∧
      applyEvent .dirtyClear s = .next { s with dirty := false } ∧
      (∀ r t, s.status = .running → applyEvent (.step r) s = .next t →
        ((∀ rec, t.status ≠ .faulted rec) → eventReply (.step r) s = .ok) ∧
          ∀ rec, t.status = .faulted rec → eventReply (.step r) s = .error rec) ∧
      ∀ r rec, s.status = .faulted rec → eventReply (.step r) s = .error rec

/-- The host's list is served oldest first, one event a step. The list is the model's own (log entry 6). -/
def Obligations.HostEventsComeOldestFirst : Prop :=
  ∀ (s : State) (e : HostEvent) (later : List HostEvent), s.host = e :: later →
    step s = applyEvent e { s with host := later }

/-! ### Invariants of every step -/

/-- The canonical form of memory is kept by every step. -/
def Obligations.StepKeepsMemoryCanonical : Prop :=
  ∀ s t : State, MemoryCanonical s → step s = .next t → MemoryCanonical t

/-- The font table and the rest of the reserved region are never changed, by a step of any kind (20_memory R60, R63). -/
def Obligations.StepKeepsReservedRegion : Prop :=
  ∀ s t : State, MemoryCanonical s → ReservedIntact s → step s = .next t → ReservedIntact t

/-- `pc` stays at or below 0x10FE in every run (10_state R24). -/
def Obligations.StepKeepsPcBound : Prop :=
  ∀ s t : State, PcBounded s → step s = .next t → PcBounded t

/-- In `FAULTED` the record names the `pc` the block stands at (60_exceptions R212), and a block that waits or has faulted has
been stepped (10_state R34). -/
def Obligations.StepKeepsStatusInvariants : Prop :=
  ∀ s t : State, RecordNamesPc s → StartedOnceStopped s → step s = .next t → RecordNamesPc t ∧ StartedOnceStopped t

/-- The state after reset meets every invariant, and the font table has the shape of 10_state R33. -/
def Obligations.ResetMeetsTheInvariants : Prop :=
  MemoryCanonical State.reset ∧ ReservedIntact State.reset ∧ PcBounded State.reset ∧ RecordNamesPc State.reset ∧
    StartedOnceStopped State.reset ∧ fontWellFormed fontGlyphs = true

/-! ### Whole-machine rules -/

/-- Only FX33 and FX55 change memory, and only bytes of the general region at `I` to `I + 15` (20_memory R53, R57). -/
def Obligations.OnlyTheStoresChangeMemory : Prop :=
  ∀ (i : Instr) (s t : State) (a : Nat), s.mem.wf = true → exec i s = .next t → readByte t.mem a ≠ readByte s.mem a →
    (∃ x, i = .ldB x ∨ i = .ldMemRegs x) ∧ Config.progBase ≤ a ∧ a < Config.memSize ∧ s.i.toNat ≤ a ∧ a ≤ s.i.toNat + 15

/-- Only CALL and RET change the stack; only ANNN, FX1E and FX29 change `I`; only FX15 and FX18 change a timer; only CLS and DRW
change the screen; only FX0A makes the block wait, and only it and the instructions that can raise change the status; no instruction touches `loaded`, `started` or the host's list (10_state R23,
R25, R28, R30, R31, R37). -/
def Obligations.EachUnitHasItsWriters : Prop :=
  ∀ (i : Instr) (s t : State), exec i s = .next t →
    (¬ SameStack s t → i = .ret ∨ ∃ nnn, i = .call nnn) ∧
      (t.i ≠ s.i → (∃ nnn, i = .ldI nnn) ∨ ∃ x, i = .addI x ∨ i = .ldF x) ∧
      (t.dt ≠ s.dt → ∃ x, i = .ldDt x) ∧ (t.st ≠ s.st → ∃ x, i = .ldSt x) ∧
      (¬ SameScreen s t → i = .cls ∨ ∃ x y n, i = .drw x y n) ∧
      (∀ x, t.status = .waitKey x → s.status = .waitKey x ∨ i = .ldVxK x) ∧
      (t.status ≠ s.status →
        i = .ret ∨ (∃ nnn, i = .call nnn ∨ i = .classE nnn) ∨ (∃ x y n, i = .drw x y n) ∨
          ∃ x, i = .ldVxK x ∨ i = .ldB x ∨ i = .ldMemRegs x ∨ i = .ldRegsMem x) ∧
      t.loaded = s.loaded ∧ t.started = s.started ∧
      t.host = s.host

/-- `VF` changes only under the six instructions that write it as their flag, and otherwise only where it is named as the
destination (10_state R22). -/
def Obligations.OnlySixInstructionsWriteTheFlag : Prop :=
  ∀ (i : Instr) (s t : State), exec i s = .next t → reg 0xF#4 t ≠ reg 0xF#4 s →
    (∃ x y, i = .addReg x y ∨ i = .sub x y ∨ i = .shr x y ∨ i = .subn x y ∨ i = .shl x y) ∨
      (∃ x y n, i = .drw x y n) ∨ (∃ kk, i = .ldImm 0xF#4 kk ∨ i = .addImm 0xF#4 kk ∨ i = .rnd 0xF#4 kk) ∨
      (∃ y, i = .ldReg 0xF#4 y ∨ i = .orReg 0xF#4 y ∨ i = .andReg 0xF#4 y ∨ i = .xorReg 0xF#4 y) ∨ i = .ldVxDt 0xF#4 ∨
      i = .ldRegsMem 0xF#4

/-- The random byte reaches no instruction but CXKK: any other instruction does the same whatever byte the STEP event brings and
whatever has been drawn before (60_exceptions R222). -/
def Obligations.RandomByteReachesOnlyRnd : Prop :=
  ∀ (i : Instr) (s : State) (draw : Option Byte) (draws : Nat), (∀ x kk, i ≠ .rnd x kk) →
    ∃ t, exec i s = .next t ∧ exec i { s with draw := draw, draws := draws } = .next { t with draw := draw, draws := draws }

/-- At the Idle end every further STEP leaves the state unchanged: all of it, where the block has been stepped and no random byte
is left at hand from an earlier STEP event (70_reset_and_hazards R249). -/
def Obligations.IdleStaysIdle : Prop :=
  ∀ s : State, Idle s → s.started = true → s.draw = none → s.host = [] → step s = .next s

/-- Every fetch of a word that holds the byte at `a`, as its high or as its low byte, sees the value `b` there. -/
def FetchSees (m : Memory) (a b : Nat) : Prop :=
  (a + 1 < Config.memSize → ∃ w, fetchWord m a = .ok w ∧ w.toNat / 0x100 = b) ∧
    ∀ f, f + 1 = a → a < Config.memSize → ∃ w, fetchWord m f = .ok w ∧ w.toNat % 0x100 = b

/-- A byte stored by FX55, for every `x`, or by FX33 is what the next fetch sees, wherever it fetches; and a store into the whole of
the very next instruction is the word fetched next (20_memory R68, 70_reset_and_hazards R246). -/
def Obligations.StoreIsSeenByTheNextFetch : Prop :=
  ∀ (x : Nibble) (s : State), s.mem.wf = true → Config.progBase ≤ s.i.toNat →
    (s.i.toNat + x.toNat < Config.memSize →
      ∃ t, exec (.ldMemRegs x) s = .next t ∧ t.pc = s.pc + 2 ∧
        (∀ k : Nibble, k.toNat ≤ x.toNat → FetchSees t.mem (s.i.toNat + k.toNat) (reg k s).toNat) ∧
        (1 ≤ x.toNat → s.i = s.pc + 2 →
          ∃ w, fetchWord t.mem t.pc.toNat = .ok w ∧ w.toNat = (reg 0#4 s).toNat * 0x100 + (reg 1#4 s).toNat)) ∧
      (s.i.toNat + 2 < Config.memSize →
        ∃ t, exec (.ldB x) s = .next t ∧ t.pc = s.pc + 2 ∧ FetchSees t.mem s.i.toNat ((reg x s).toNat / 100) ∧
          FetchSees t.mem (s.i.toNat + 1) ((reg x s).toNat / 10 % 10) ∧
          FetchSees t.mem (s.i.toNat + 2) ((reg x s).toNat % 10) ∧
          (s.i = s.pc + 2 →
            ∃ w, fetchWord t.mem t.pc.toNat = .ok w ∧
              w.toNat = (reg x s).toNat / 100 * 0x100 + (reg x s).toNat / 10 % 10))
end

