-- ==== Sys2Proof/Laws/Decode.lean ====
section
/-! SUPPORT. The fields of a word as numbers, and the well-formedness of every `Instr`. -/

namespace Sys2Proof

/-- A concatenation as a number: the high part above the low one (00_scope R10). -/
theorem toNat_append_add {m n : Nat} (a : BitVec m) (b : BitVec n) : (a ++ b).toNat = a.toNat * 2 ^ n + b.toNat := by
  rw [BitVec.toNat_append, ← Nat.shiftLeft_add_eq_or_of_lt b.isLt, Nat.shiftLeft_eq]

theorem classOf_toNat (w : Word) : (classOf w).toNat = w.toNat / 0x1000 := by
  have := w.isLt
  rw [classOf, BitVec.extractLsb'_toNat, Nat.shiftRight_eq_div_pow]
  omega

theorem nnnOf_toNat (w : Word) : (nnnOf w).toNat = w.toNat % 0x1000 := by
  rw [nnnOf, BitVec.extractLsb'_toNat, Nat.shiftRight_zero]

theorem xOf_toNat (w : Word) : (xOf w).toNat = w.toNat / 0x100 % 0x10 := by
  rw [xOf, BitVec.extractLsb'_toNat, Nat.shiftRight_eq_div_pow]

theorem yOf_toNat (w : Word) : (yOf w).toNat = w.toNat / 0x10 % 0x10 := by
  rw [yOf, BitVec.extractLsb'_toNat, Nat.shiftRight_eq_div_pow]

theorem kkOf_toNat (w : Word) : (kkOf w).toNat = w.toNat % 0x100 := by
  rw [kkOf, BitVec.extractLsb'_toNat, Nat.shiftRight_zero]

theorem nOf_toNat (w : Word) : (nOf w).toNat = w.toNat % 0x10 := by
  rw [nOf, BitVec.extractLsb'_toNat, Nat.shiftRight_zero]

/-! The fields of a word put together from them, in the three layouts of 30_encoding R81. -/

@[simp] theorem classOf_addr (c : Nibble) (nnn : Addr) : classOf (c ++ nnn : Word) = c := by
  apply BitVec.eq_of_toNat_eq
  have := c.isLt
  have := nnn.isLt
  simp only [classOf_toNat, toNat_append_add]
  omega

@[simp] theorem nnnOf_addr (c : Nibble) (nnn : Addr) : nnnOf (c ++ nnn : Word) = nnn := by
  apply BitVec.eq_of_toNat_eq
  have := c.isLt
  have := nnn.isLt
  simp only [nnnOf_toNat, toNat_append_add]
  omega

@[simp] theorem classOf_byte (c x : Nibble) (kk : Byte) : classOf (c ++ x ++ kk : Word) = c := by
  apply BitVec.eq_of_toNat_eq
  have := c.isLt
  have := x.isLt
  have := kk.isLt
  simp only [classOf_toNat, toNat_append_add]
  omega

@[simp] theorem xOf_byte (c x : Nibble) (kk : Byte) : xOf (c ++ x ++ kk : Word) = x := by
  apply BitVec.eq_of_toNat_eq
  have := c.isLt
  have := x.isLt
  have := kk.isLt
  simp only [xOf_toNat, toNat_append_add]
  omega

@[simp] theorem kkOf_byte (c x : Nibble) (kk : Byte) : kkOf (c ++ x ++ kk : Word) = kk := by
  apply BitVec.eq_of_toNat_eq
  have := c.isLt
  have := x.isLt
  have := kk.isLt
  simp only [kkOf_toNat, toNat_append_add]
  omega

@[simp] theorem classOf_nibbles (c x y n : Nibble) : classOf (c ++ x ++ y ++ n : Word) = c := by
  apply BitVec.eq_of_toNat_eq
  have := c.isLt
  have := x.isLt
  have := y.isLt
  have := n.isLt
  simp only [classOf_toNat, toNat_append_add]
  omega

@[simp] theorem xOf_nibbles (c x y n : Nibble) : xOf (c ++ x ++ y ++ n : Word) = x := by
  apply BitVec.eq_of_toNat_eq
  have := c.isLt
  have := x.isLt
  have := y.isLt
  have := n.isLt
  simp only [xOf_toNat, toNat_append_add]
  omega

@[simp] theorem yOf_nibbles (c x y n : Nibble) : yOf (c ++ x ++ y ++ n : Word) = y := by
  apply BitVec.eq_of_toNat_eq
  have := c.isLt
  have := x.isLt
  have := y.isLt
  have := n.isLt
  simp only [yOf_toNat, toNat_append_add]
  omega

@[simp] theorem nOf_nibbles (c x y n : Nibble) : nOf (c ++ x ++ y ++ n : Word) = n := by
  apply BitVec.eq_of_toNat_eq
  have := c.isLt
  have := x.isLt
  have := y.isLt
  have := n.isLt
  simp only [nOf_toNat, toNat_append_add]
  omega

/-- A word is the concatenation of its two bytes (20_memory R55). -/
theorem wordOfBytes_bytes (w : Word) : wordOfBytes (highByte w) (lowByte w) = w := by
  apply BitVec.eq_of_toNat_eq
  have := w.isLt
  rw [wordOfBytes, toNat_append_add, highByte, lowByte, BitVec.extractLsb'_toNat, BitVec.extractLsb'_toNat,
    Nat.shiftRight_eq_div_pow, Nat.shiftRight_zero]
  omega

/-- The type of a field carries its range, so no ill-formed instruction term exists (10_state R35). -/
theorem Laws.instr_wellFormed (i : Instr) : i.wellFormed = true := by
  have reg_index : ∀ x : Nibble, x.toNat < Config.numRegs := fun x => x.isLt
  cases i <;> simp [Instr.wellFormed, reg_index]

end Sys2Proof
end

