-- ==== Sys2Proof/Laws/Framebuffer.lean ====
section
/-! SUPPORT. The framebuffer: what a pixel reads as after each operation of the controller. -/

namespace Sys2Proof.Machine

/-- A pixel after one pixel was written. -/
theorem pix_setPix (g : Grid) (px py : Nat) (b : Bool) (qx qy : Nat) :
    pix (setPix g px py b) qx qy =
      if qx = px ∧ qy = py ∧ px < Config.dispW ∧ py < Config.dispH then b else pix g qx qy := by
  unfold setPix
  split
  · rename_i inside
    unfold pix
    by_cases q_inside : qx < Config.dispW ∧ qy < Config.dispH
    · simp only [dif_pos q_inside, Vector.getElem_set]
      by_cases hy : py = qy
      · subst hy
        simp only [if_pos, Vector.getElem_set, eq_comm (a := px), inside, and_self, and_true]
      · simp [hy, eq_comm (a := qy)]
    · rw [dif_neg q_inside, dif_neg q_inside, if_neg]
      rintro ⟨rfl, rfl, h⟩
      exact q_inside h
  · rename_i outside
    rw [if_neg (fun h => outside h.2.2)]

/-- Outside the grid every pixel reads clear. -/
theorem pix_outside (g : Grid) {px py : Nat} (h : ¬ (px < Config.dispW ∧ py < Config.dispH)) : pix g px py = false :=
  dif_neg h

/-- Two grids with the same pixels are the same grid. -/
theorem grid_ext {g g' : Grid} (h : ∀ px py, pix g px py = pix g' px py) : g = g' := by
  apply Vector.ext
  intro py hy
  apply Vector.ext
  intro px hx
  have := h px py
  unfold pix at this
  rwa [dif_pos ⟨hx, hy⟩, dif_pos ⟨hx, hy⟩] at this

@[simp] theorem pix_clearGrid (px py : Nat) : pix clearGrid px py = false := by
  unfold pix clearGrid
  split <;> simp

/-- A pixel after one visited pixel of a blit (40_display R101). -/
theorem pix_blitPixel (rule : CollisionRule) (bit : Bool) (px py : Nat) (acc : Grid × Bool) (qx qy : Nat)
    (inside : px < Config.dispW ∧ py < Config.dispH) :
    pix (blitPixel rule bit px py acc).1 qx qy =
      if qx = px ∧ qy = py then pix acc.1 qx qy ^^ bit else pix acc.1 qx qy := by
  simp only [blitPixel, pix_setPix, inside, and_self, and_true]
  split
  · rename_i at_pixel
    rw [at_pixel.1, at_pixel.2]
  · rfl

/-- The collision after one visited pixel (40_display R103). -/
theorem collision_blitPixel (rule : CollisionRule) (bit : Bool) (px py : Nat) (acc : Grid × Bool) :
    (blitPixel rule bit px py acc).2 = (acc.2 || collisionHit rule (pix acc.1 px py) bit) := rfl

/-- A pixel after one row over rising columns: XORed with its sprite bit where the row covers it inside the grid, and else
unchanged (40_display R101, R102, R105). -/
theorem pix_blitRow (rule : CollisionRule) (row : Byte) (x y : Nat) (hy : y < Config.dispH) (cols : List Nat)
    (rising : cols.Pairwise (· < ·)) (acc : Grid × Bool) (qx qy : Nat) (hx : qx < Config.dispW) :
    pix (blitRow rule row x y cols acc).1 qx qy =
      if qy = y ∧ x ≤ qx ∧ qx - x ∈ cols then pix acc.1 qx qy ^^ row.getLsbD (7 - (qx - x)) else pix acc.1 qx qy := by
  induction cols generalizing acc with
  | nil => simp [blitRow]
  | cons c cs ih =>
    obtain ⟨above, rising⟩ := List.pairwise_cons.mp rising
    rw [blitRow]
    split
    · rename_i edge
      rw [if_neg]
      rintro ⟨-, hle, hmem⟩
      rcases List.mem_cons.mp hmem with h | h
      · omega
      · have := above _ h; omega
    · rename_i edge
      have c_not_later : c ∉ cs := fun h => lt_irrefl c (above c h)
      rw [ih rising, pix_blitPixel _ _ _ _ _ _ _ ⟨by omega, hy⟩]
      by_cases at_c : qx = x + c ∧ qy = y
      · obtain ⟨rfl, rfl⟩ := at_c
        have e : x + c - x = c := by omega
        simp [e, c_not_later]
      · rw [if_neg at_c]
        by_cases hq : qy = y ∧ x ≤ qx
        · have hne : qx - x ≠ c := fun h => at_c ⟨by omega, hq.1⟩
          simp [hq.1, hq.2, hne]
        · rw [if_neg (fun h => hq ⟨h.1, h.2.1⟩), if_neg (fun h => hq ⟨h.1, h.2.1⟩)]

/-- The collision after one row over rising columns: the one so far, or a hit at some column inside the grid (40_display R103,
R105). -/
theorem collision_blitRow (rule : CollisionRule) (row : Byte) (x y : Nat) (hy : y < Config.dispH) (cols : List Nat)
    (rising : cols.Pairwise (· < ·)) (acc : Grid × Bool) :
    (blitRow rule row x y cols acc).2 = true ↔
      acc.2 = true ∨ ∃ c ∈ cols, x + c < Config.dispW ∧
        collisionHit rule (pix acc.1 (x + c) y) (row.getLsbD (7 - c)) = true := by
  induction cols generalizing acc with
  | nil => simp [blitRow]
  | cons c cs ih =>
    obtain ⟨above, rising⟩ := List.pairwise_cons.mp rising
    rw [blitRow]
    split
    · rename_i edge
      constructor
      · exact .inl
      · rintro (h | ⟨d, hd, hlt, -⟩)
        · exact h
        · rcases List.mem_cons.mp hd with rfl | hd
          · omega
          · have := above d hd; omega
    · rename_i edge
      rw [ih rising, collision_blitPixel]
      have later : ∀ d ∈ cs, pix (blitPixel rule (row.getLsbD (7 - c)) (x + c) y acc).1 (x + d) y = pix acc.1 (x + d) y := by
        intro d hd
        rw [pix_blitPixel _ _ _ _ _ _ _ ⟨by omega, hy⟩, if_neg]
        have := above d hd
        omega
      simp only [Bool.or_eq_true, List.exists_mem_cons_iff, or_assoc]
      apply or_congr Iff.rfl
      apply or_congr
      · simp [Nat.not_le.mp edge]
      · constructor
        · rintro ⟨d, hd, h⟩
          rw [later d hd] at h
          exact ⟨d, hd, h⟩
        · rintro ⟨d, hd, h⟩
          rw [← later d hd] at h
          exact ⟨d, hd, h⟩

end Sys2Proof.Machine
end

