-- ==== Sys2Proof/Laws/Memory.lean ====
section
/-! SUPPORT. Memory: the canonical form, what a read answers after a write, and all that each primitive can do. -/

namespace Sys2Proof.Machine

/-- Every listed address of a canonical tail lies above its head's, so an address below reads as its reset contents. -/
theorem readByte_below {m : Memory} {a : Nat} (h : m.all (fun c => decide (a < c.1)) = true) {b : Nat} (hb : b ≤ a) :
    readByte m b = resetByte b := by
  induction m with
  | nil => rfl
  | cons c m ih =>
    obtain ⟨k, w⟩ := c
    simp only [List.all_cons, Bool.and_eq_true, decide_eq_true_eq] at h
    rw [readByte, if_neg (by omega), ih h.2]

theorem Memory.wf_cons {a : Nat} {w : Byte} {m : Memory} :
    Memory.wf ((a, w) :: m) = true ↔
      a < Config.memSize ∧ w ≠ resetByte a ∧ m.all (fun c => decide (a < c.1)) = true ∧ Memory.wf m = true := by
  simp [Memory.wf, and_assoc]

/-- A canonical memory lists only addresses of memory. -/
theorem all_above_trans {m : Memory} {a b : Nat} (h : m.all (fun c => decide (a < c.1)) = true) (hb : b ≤ a) :
    m.all (fun c => decide (b < c.1)) = true := by
  simp only [List.all_eq_true, decide_eq_true_eq] at *
  exact fun c hc => lt_of_le_of_lt hb (h c hc)

theorem putByte_above {m : Memory} {a b : Nat} {w : Byte} (h : m.all (fun c => decide (a < c.1)) = true) (hb : a < b) :
    (putByte m b w).all (fun c => decide (a < c.1)) = true := by
  induction m with
  | nil => unfold putByte; split <;> simp [hb]
  | cons c m ih =>
    obtain ⟨k, u⟩ := c
    simp only [List.all_cons, Bool.and_eq_true, decide_eq_true_eq] at h
    unfold putByte
    split_ifs <;> simp [h.1, h.2, hb, ih h.2]

/-- A write keeps the canonical form. -/
theorem wf_putByte {m : Memory} (hm : m.wf = true) {a : Nat} (ha : a < Config.memSize) (w : Byte) :
    (putByte m a w).wf = true := by
  induction m with
  | nil =>
    unfold putByte
    split
    · exact hm
    · rename_i hw
      exact Memory.wf_cons.mpr ⟨ha, hw, by simp, rfl⟩
  | cons c m ih =>
    obtain ⟨k, u⟩ := c
    obtain ⟨hk, hu, habove, hm'⟩ := Memory.wf_cons.mp hm
    unfold putByte
    split_ifs with h1 h2 h3 h4
    · exact hm
    · exact Memory.wf_cons.mpr ⟨ha, h2, by simp [h1]; simpa using all_above_trans habove (le_of_lt h1), hm⟩
    · exact hm'
    · subst h3
      exact Memory.wf_cons.mpr ⟨ha, h4, habove, hm'⟩
    · exact Memory.wf_cons.mpr ⟨hk, hu, putByte_above habove (by omega), ih hm'⟩

/-- A read after a write. -/
theorem readByte_putByte {m : Memory} (hm : m.wf = true) (a : Nat) (w : Byte) (b : Nat) :
    readByte (putByte m a w) b = if b = a then w else readByte m b := by
  induction m with
  | nil =>
    unfold putByte
    split <;> by_cases hb : b = a <;> simp_all [readByte]
  | cons c m ih =>
    obtain ⟨k, u⟩ := c
    obtain ⟨-, -, above, hm'⟩ := Memory.wf_cons.mp hm
    unfold putByte
    rcases lt_trichotomy a k with h | h | h
    · rw [if_pos h]
      split
      · split
        · rw [readByte, if_neg (by omega), readByte_below above (by omega)]; simp_all
        · rfl
      · rfl
    · subst h
      rw [if_neg (lt_irrefl a), if_pos rfl]
      split
      · by_cases hb : b = a
        · subst hb; rw [readByte_below above le_rfl, if_pos rfl]; simp_all
        · simp [readByte, hb]
      · by_cases hb : b = a <;> simp [readByte, hb]
    · rw [if_neg (by omega), if_neg (by omega), readByte, ih hm', readByte]
      split_ifs <;> first | rfl | omega

/-- Writes at ascending addresses keep the canonical form. -/
theorem wf_putBytes {m : Memory} (hm : m.wf = true) (a : Nat) (ws : List Byte) (fits : a + ws.length ≤ Config.memSize) :
    (putBytes a ws m).wf = true := by
  induction ws generalizing a m with
  | nil => exact hm
  | cons w ws ih =>
    simp only [List.length_cons] at fits
    exact ih (wf_putByte hm (by omega) w) (a + 1) (by omega)

/-- A read after writes at ascending addresses. -/
theorem readByte_putBytes {m : Memory} (hm : m.wf = true) (a : Nat) (ws : List Byte)
    (fits : a + ws.length ≤ Config.memSize) (b : Nat) :
    readByte (putBytes a ws m) b =
      if a ≤ b ∧ b < a + ws.length then ws.getD (b - a) 0 else readByte m b := by
  induction ws generalizing a m with
  | nil => rw [if_neg (by simp only [List.length_nil]; omega)]; rfl
  | cons w ws ih =>
    simp only [List.length_cons] at fits ⊢
    rw [putBytes, ih (wf_putByte hm (by omega) w) (a + 1) (by omega), readByte_putByte hm]
    rcases lt_trichotomy b a with h | h | h
    · rw [if_neg (by omega), if_neg (by omega), if_neg (by omega)]
    · subst h; rw [if_neg (by omega), if_pos rfl, if_pos (by omega)]; simp
    · obtain ⟨d, hd⟩ : ∃ d, b = a + 1 + d := ⟨b - (a + 1), by omega⟩
      subst hd
      have e1 : a + 1 + d - (a + 1) = d := by omega
      have e2 : a + 1 + d - a = d + 1 := by omega
      simp only [e1, e2, List.getD_cons_succ]
      split_ifs <;> first | rfl | omega

/-- All that a guarded write can do (20_memory R53). -/
theorem memWrite_cases (m : Memory) (a : Nat) (w : Byte) :
    ((a < Config.progBase ∨ Config.memSize ≤ a) ∧ memWrite m a w = none) ∨
      (Config.progBase ≤ a ∧ a < Config.memSize ∧ memWrite m a w = some (putByte m a w)) := by
  unfold memWrite
  split
  · exact .inl ⟨‹_›, rfl⟩
  · exact .inr ⟨by omega, by omega, rfl⟩

/-- Guarded stores that all pass the guard write every byte. -/
theorem storeBytes_ok (a : Nat) (ws : List Byte) (m : Memory) (low : Config.progBase ≤ a)
    (high : a + ws.length ≤ Config.memSize) : storeBytes a ws m = (putBytes a ws m, none) := by
  induction ws generalizing a m with
  | nil => rfl
  | cons w ws ih =>
    simp only [List.length_cons] at high
    have guard : memWrite m a w = some (putByte m a w) := by
      unfold memWrite; rw [if_neg (by omega)]
    simp only [storeBytes, guard, putBytes]
    exact ih (a + 1) _ (by omega) (by omega)

/-- Guarded stores that begin below `PROG_BASE` write nothing and name their first address. -/
theorem storeBytes_low (a : Nat) (ws : List Byte) (m : Memory) (some_byte : ws ≠ []) (low : a < Config.progBase) :
    storeBytes a ws m = (m, some a) := by
  cases ws with
  | nil => exact absurd rfl some_byte
  | cons w ws =>
    have guard : memWrite m a w = none := by unfold memWrite; rw [if_pos (.inl low)]
    simp only [storeBytes, guard]

/-- Guarded stores that run off the end of memory write the bytes that fit and name the first address past the end. -/
theorem storeBytes_high (a : Nat) (ws : List Byte) (m : Memory) (some_byte : ws ≠ []) (low : Config.progBase ≤ a)
    (high : Config.memSize < a + ws.length) :
    storeBytes a ws m = (putBytes a (ws.take (Config.memSize - a)) m, some (max a Config.memSize)) := by
  induction ws generalizing a m with
  | nil => exact absurd rfl some_byte
  | cons w ws ih =>
    simp only [List.length_cons] at high
    by_cases past : Config.memSize ≤ a
    · have guard : memWrite m a w = none := by unfold memWrite; rw [if_pos (.inr past)]
      simp [storeBytes, guard, Nat.sub_eq_zero_of_le past, putBytes, past]
    · have guard : memWrite m a w = some (putByte m a w) := by unfold memWrite; rw [if_neg (by omega)]
      obtain ⟨d, hd⟩ : ∃ d, Config.memSize - a = d + 1 := ⟨Config.memSize - a - 1, by omega⟩
      simp only [storeBytes, guard, hd, List.take_succ_cons, putBytes]
      have more : ws ≠ [] := by rintro rfl; simp only [List.length_nil] at high; omega
      rw [ih (a + 1) _ more (by omega) (by omega), show Config.memSize - (a + 1) = d by omega,
        show max (a + 1) Config.memSize = max a Config.memSize by omega]

/-- Guarded stores are unguarded writes of a front part of the bytes, all inside the general region. -/
theorem storeBytes_fst (a : Nat) (ws : List Byte) (m : Memory) :
    (storeBytes a ws m).1 = m ∨
      ∃ k, Config.progBase ≤ a ∧ a + (ws.take k).length ≤ Config.memSize ∧
        (storeBytes a ws m).1 = putBytes a (ws.take k) m := by
  by_cases none_left : ws = []
  · subst none_left; exact .inl rfl
  by_cases low : a < Config.progBase
  · exact .inl (by rw [storeBytes_low a ws m none_left low])
  by_cases high : Config.memSize < a + ws.length
  · by_cases past : Config.memSize ≤ a
    · left
      rw [storeBytes_high a ws m none_left (by omega) high, Nat.sub_eq_zero_of_le past]
      rfl
    · exact .inr ⟨Config.memSize - a, by omega, by rw [List.length_take]; omega, by
        rw [storeBytes_high a ws m none_left (by omega) high]⟩
  · exact .inr ⟨ws.length, by omega, by rw [List.take_length]; omega, by
      rw [storeBytes_ok a ws m (by omega) (by omega), List.take_length]⟩

/-- Guarded stores keep the canonical form. -/
theorem wf_storeBytes {m : Memory} (hm : m.wf = true) (a : Nat) (ws : List Byte) : (storeBytes a ws m).1.wf = true := by
  rcases storeBytes_fst a ws m with h | ⟨k, -, fits, h⟩
  · rw [h]; exact hm
  · rw [h]; exact wf_putBytes hm a _ fits

/-- Guarded stores leave every byte below `PROG_BASE` as it was (20_memory R60). -/
theorem readByte_storeBytes_reserved {m : Memory} (hm : m.wf = true) (a : Nat) (ws : List Byte) {b : Nat}
    (reserved : b < Config.progBase) : readByte (storeBytes a ws m).1 b = readByte m b := by
  rcases storeBytes_fst a ws m with h | ⟨k, low, fits, h⟩
  · rw [h]
  · rw [h, readByte_putBytes hm a _ fits, if_neg (by omega)]

/-- A block read that stays inside memory, or reads nothing, answers all its bytes (20_memory R52). -/
theorem readBlock_ok (m : Memory) (a n : Nat) (fits : n = 0 ∨ a + n ≤ Config.memSize) :
    readBlock m a n = .ok ((List.range n).map (fun k => readByte m (a + k))) := by
  induction n generalizing a with
  | zero => rfl
  | succ n ih =>
    rw [readBlock, if_neg (by omega), ih (a + 1) (by omega), List.range_succ_eq_map]
    simp [Function.comp_def, Nat.add_comm, Nat.add_left_comm]

/-- A block read that leaves memory names its first address outside, and reads nothing (20_memory R52). -/
theorem readBlock_error (m : Memory) (a n : Nat) (some_byte : 0 < n) (past : Config.memSize < a + n) :
    readBlock m a n = .error (max a Config.memSize) := by
  induction n generalizing a with
  | zero => omega
  | succ n ih =>
    rw [readBlock]
    split
    · rw [show max a Config.memSize = a by omega]
    · rw [ih (a + 1) (by omega) (by omega), show max (a + 1) Config.memSize = max a Config.memSize by omega]

/-- All that a fetch can do (20_memory R54). -/
theorem fetchWord_cases (m : Memory) (a : Nat) :
    (Config.memSize ≤ a + 1 ∧ fetchWord m a = .error (if Config.memSize ≤ a then a else a + 1)) ∨
      (a + 1 < Config.memSize ∧ fetchWord m a = .ok (wordOfBytes (readByte m a) (readByte m (a + 1)))) := by
  unfold fetchWord
  split
  · exact .inl ⟨‹_›, rfl⟩
  · exact .inr ⟨by omega, rfl⟩

end Sys2Proof.Machine
end

