-- ==== Sys2Proof/Laws/PerInstr.lean ====
section
/-! SUPPORT. The family `RowFits`, one lemma per constructor: an instruction's word lies in its row of spec/opcode_table.json,
that is, it has the row's opcode class and secondary function code. -/

namespace Sys2Proof.Laws.RowFits

/-- The opcode class of the instruction's row. -/
def rowClass : Instr → Nat
  | .cls | .ret => 0x0
  | .jp _ => 0x1
  | .call _ => 0x2
  | .seImm _ _ => 0x3
  | .sneImm _ _ => 0x4
  | .seReg _ _ _ => 0x5
  | .ldImm _ _ => 0x6
  | .addImm _ _ => 0x7
  | .ldReg _ _ | .orReg _ _ | .andReg _ _ | .xorReg _ _ | .addReg _ _ | .sub _ _ | .shr _ _ | .subn _ _ | .shl _ _ => 0x8
  | .sneReg _ _ _ => 0x9
  | .ldI _ => 0xA
  | .jpV0 _ => 0xB
  | .rnd _ _ => 0xC
  | .drw _ _ _ => 0xD
  | .classE _ => 0xE
  | .ldVxDt _ | .ldVxK _ | .ldDt _ | .ldSt _ | .addI _ | .ldF _ | .ldB _ | .ldMemRegs _ | .ldRegsMem _ => 0xF

/-- The secondary function code of the row and how many low values it is one of: 12, 4 or 8 bits, or none (30_encoding R83). -/
def rowCode : Instr → Nat × Nat
  | .cls => (0x0E0, 0x1000)
  | .ret => (0x0EE, 0x1000)
  | .ldReg _ _ => (0x0, 0x10)
  | .orReg _ _ => (0x1, 0x10)
  | .andReg _ _ => (0x2, 0x10)
  | .xorReg _ _ => (0x3, 0x10)
  | .addReg _ _ => (0x4, 0x10)
  | .sub _ _ => (0x5, 0x10)
  | .shr _ _ => (0x6, 0x10)
  | .subn _ _ => (0x7, 0x10)
  | .shl _ _ => (0xE, 0x10)
  | .ldVxDt _ => (0x07, 0x100)
  | .ldVxK _ => (0x0A, 0x100)
  | .ldDt _ => (0x15, 0x100)
  | .ldSt _ => (0x18, 0x100)
  | .addI _ => (0x1E, 0x100)
  | .ldF _ => (0x29, 0x100)
  | .ldB _ => (0x33, 0x100)
  | .ldMemRegs _ => (0x55, 0x100)
  | .ldRegsMem _ => (0x65, 0x100)
  | .jp _ | .call _ | .seImm _ _ | .sneImm _ _ | .seReg _ _ _ | .ldImm _ _ | .addImm _ _ | .sneReg _ _ _ | .ldI _ | .jpV0 _
  | .rnd _ _ | .drw _ _ _ | .classE _ => (0, 1)

/-- The word of `i` has its row's class and secondary code. -/
def Statement (i : Instr) : Prop :=
  (encode i).toNat / 0x1000 = rowClass i ∧ (encode i).toNat % (rowCode i).2 = (rowCode i).1

theorem cls : Statement .cls :=
  ⟨by decide, by decide⟩

theorem ret : Statement .ret :=
  ⟨by decide, by decide⟩

theorem jp (nnn : Addr) : Statement (.jp nnn) := by
  have := nnn.isLt
  simp only [Statement, encode, rowClass, rowCode, toNat_append_add, BitVec.toNat_ofNat]
  omega

theorem call (nnn : Addr) : Statement (.call nnn) := by
  have := nnn.isLt
  simp only [Statement, encode, rowClass, rowCode, toNat_append_add, BitVec.toNat_ofNat]
  omega

theorem seImm (x : Nibble) (kk : Byte) : Statement (.seImm x kk) := by
  have := x.isLt
  have := kk.isLt
  simp only [Statement, encode, rowClass, rowCode, toNat_append_add, BitVec.toNat_ofNat]
  omega

theorem sneImm (x : Nibble) (kk : Byte) : Statement (.sneImm x kk) := by
  have := x.isLt
  have := kk.isLt
  simp only [Statement, encode, rowClass, rowCode, toNat_append_add, BitVec.toNat_ofNat]
  omega

theorem seReg (x : Nibble) (y : Nibble) (n : Nibble) : Statement (.seReg x y n) := by
  have := x.isLt
  have := y.isLt
  have := n.isLt
  simp only [Statement, encode, rowClass, rowCode, toNat_append_add, BitVec.toNat_ofNat]
  omega

theorem ldImm (x : Nibble) (kk : Byte) : Statement (.ldImm x kk) := by
  have := x.isLt
  have := kk.isLt
  simp only [Statement, encode, rowClass, rowCode, toNat_append_add, BitVec.toNat_ofNat]
  omega

theorem addImm (x : Nibble) (kk : Byte) : Statement (.addImm x kk) := by
  have := x.isLt
  have := kk.isLt
  simp only [Statement, encode, rowClass, rowCode, toNat_append_add, BitVec.toNat_ofNat]
  omega

theorem ldReg (x : Nibble) (y : Nibble) : Statement (.ldReg x y) := by
  have := x.isLt
  have := y.isLt
  simp only [Statement, encode, rowClass, rowCode, toNat_append_add, BitVec.toNat_ofNat]
  omega

theorem orReg (x : Nibble) (y : Nibble) : Statement (.orReg x y) := by
  have := x.isLt
  have := y.isLt
  simp only [Statement, encode, rowClass, rowCode, toNat_append_add, BitVec.toNat_ofNat]
  omega

theorem andReg (x : Nibble) (y : Nibble) : Statement (.andReg x y) := by
  have := x.isLt
  have := y.isLt
  simp only [Statement, encode, rowClass, rowCode, toNat_append_add, BitVec.toNat_ofNat]
  omega

theorem xorReg (x : Nibble) (y : Nibble) : Statement (.xorReg x y) := by
  have := x.isLt
  have := y.isLt
  simp only [Statement, encode, rowClass, rowCode, toNat_append_add, BitVec.toNat_ofNat]
  omega

theorem addReg (x : Nibble) (y : Nibble) : Statement (.addReg x y) := by
  have := x.isLt
  have := y.isLt
  simp only [Statement, encode, rowClass, rowCode, toNat_append_add, BitVec.toNat_ofNat]
  omega

theorem sub (x : Nibble) (y : Nibble) : Statement (.sub x y) := by
  have := x.isLt
  have := y.isLt
  simp only [Statement, encode, rowClass, rowCode, toNat_append_add, BitVec.toNat_ofNat]
  omega

theorem shr (x : Nibble) (y : Nibble) : Statement (.shr x y) := by
  have := x.isLt
  have := y.isLt
  simp only [Statement, encode, rowClass, rowCode, toNat_append_add, BitVec.toNat_ofNat]
  omega

theorem subn (x : Nibble) (y : Nibble) : Statement (.subn x y) := by
  have := x.isLt
  have := y.isLt
  simp only [Statement, encode, rowClass, rowCode, toNat_append_add, BitVec.toNat_ofNat]
  omega

theorem shl (x : Nibble) (y : Nibble) : Statement (.shl x y) := by
  have := x.isLt
  have := y.isLt
  simp only [Statement, encode, rowClass, rowCode, toNat_append_add, BitVec.toNat_ofNat]
  omega

theorem sneReg (x : Nibble) (y : Nibble) (n : Nibble) : Statement (.sneReg x y n) := by
  have := x.isLt
  have := y.isLt
  have := n.isLt
  simp only [Statement, encode, rowClass, rowCode, toNat_append_add, BitVec.toNat_ofNat]
  omega

theorem ldI (nnn : Addr) : Statement (.ldI nnn) := by
  have := nnn.isLt
  simp only [Statement, encode, rowClass, rowCode, toNat_append_add, BitVec.toNat_ofNat]
  omega

theorem jpV0 (nnn : Addr) : Statement (.jpV0 nnn) := by
  have := nnn.isLt
  simp only [Statement, encode, rowClass, rowCode, toNat_append_add, BitVec.toNat_ofNat]
  omega

theorem rnd (x : Nibble) (kk : Byte) : Statement (.rnd x kk) := by
  have := x.isLt
  have := kk.isLt
  simp only [Statement, encode, rowClass, rowCode, toNat_append_add, BitVec.toNat_ofNat]
  omega

theorem drw (x : Nibble) (y : Nibble) (n : Nibble) : Statement (.drw x y n) := by
  have := x.isLt
  have := y.isLt
  have := n.isLt
  simp only [Statement, encode, rowClass, rowCode, toNat_append_add, BitVec.toNat_ofNat]
  omega

theorem classE (nnn : Addr) : Statement (.classE nnn) := by
  have := nnn.isLt
  simp only [Statement, encode, rowClass, rowCode, toNat_append_add, BitVec.toNat_ofNat]
  omega

theorem ldVxDt (x : Nibble) : Statement (.ldVxDt x) := by
  have := x.isLt
  simp only [Statement, encode, rowClass, rowCode, toNat_append_add, BitVec.toNat_ofNat]
  omega

theorem ldVxK (x : Nibble) : Statement (.ldVxK x) := by
  have := x.isLt
  simp only [Statement, encode, rowClass, rowCode, toNat_append_add, BitVec.toNat_ofNat]
  omega

theorem ldDt (x : Nibble) : Statement (.ldDt x) := by
  have := x.isLt
  simp only [Statement, encode, rowClass, rowCode, toNat_append_add, BitVec.toNat_ofNat]
  omega

theorem ldSt (x : Nibble) : Statement (.ldSt x) := by
  have := x.isLt
  simp only [Statement, encode, rowClass, rowCode, toNat_append_add, BitVec.toNat_ofNat]
  omega

theorem addI (x : Nibble) : Statement (.addI x) := by
  have := x.isLt
  simp only [Statement, encode, rowClass, rowCode, toNat_append_add, BitVec.toNat_ofNat]
  omega

theorem ldF (x : Nibble) : Statement (.ldF x) := by
  have := x.isLt
  simp only [Statement, encode, rowClass, rowCode, toNat_append_add, BitVec.toNat_ofNat]
  omega

theorem ldB (x : Nibble) : Statement (.ldB x) := by
  have := x.isLt
  simp only [Statement, encode, rowClass, rowCode, toNat_append_add, BitVec.toNat_ofNat]
  omega

theorem ldMemRegs (x : Nibble) : Statement (.ldMemRegs x) := by
  have := x.isLt
  simp only [Statement, encode, rowClass, rowCode, toNat_append_add, BitVec.toNat_ofNat]
  omega

theorem ldRegsMem (x : Nibble) : Statement (.ldRegsMem x) := by
  have := x.isLt
  simp only [Statement, encode, rowClass, rowCode, toNat_append_add, BitVec.toNat_ofNat]
  omega

end Sys2Proof.Laws.RowFits
end

