-- ==== Sys2Proof/Laws/State.lean ====
section
/-! SUPPORT. One lemma per field per update of the state, so that no later proof unfolds a record update. -/

namespace Sys2Proof.Machine

@[simp] theorem setReg_i (x : Nibble) (w : Byte) (s : State) : (setReg x w s).i = s.i := rfl
@[simp] theorem setReg_pc (x : Nibble) (w : Byte) (s : State) : (setReg x w s).pc = s.pc := rfl
@[simp] theorem setReg_stack (x : Nibble) (w : Byte) (s : State) : (setReg x w s).stack = s.stack := rfl
@[simp] theorem setReg_sp (x : Nibble) (w : Byte) (s : State) : (setReg x w s).sp = s.sp := rfl
@[simp] theorem setReg_dt (x : Nibble) (w : Byte) (s : State) : (setReg x w s).dt = s.dt := rfl
@[simp] theorem setReg_st (x : Nibble) (w : Byte) (s : State) : (setReg x w s).st = s.st := rfl
@[simp] theorem setReg_mem (x : Nibble) (w : Byte) (s : State) : (setReg x w s).mem = s.mem := rfl
@[simp] theorem setReg_fb (x : Nibble) (w : Byte) (s : State) : (setReg x w s).fb = s.fb := rfl
@[simp] theorem setReg_dirty (x : Nibble) (w : Byte) (s : State) : (setReg x w s).dirty = s.dirty := rfl
@[simp] theorem setReg_status (x : Nibble) (w : Byte) (s : State) : (setReg x w s).status = s.status := rfl
@[simp] theorem setReg_loaded (x : Nibble) (w : Byte) (s : State) : (setReg x w s).loaded = s.loaded := rfl
@[simp] theorem setReg_started (x : Nibble) (w : Byte) (s : State) : (setReg x w s).started = s.started := rfl
@[simp] theorem setReg_draw (x : Nibble) (w : Byte) (s : State) : (setReg x w s).draw = s.draw := rfl
@[simp] theorem setReg_draws (x : Nibble) (w : Byte) (s : State) : (setReg x w s).draws = s.draws := rfl
@[simp] theorem setReg_host (x : Nibble) (w : Byte) (s : State) : (setReg x w s).host = s.host := rfl

@[simp] theorem setI_v (w : Word) (s : State) : (setI w s).v = s.v := rfl
@[simp] theorem setI_i (w : Word) (s : State) : (setI w s).i = w := rfl
@[simp] theorem setI_pc (w : Word) (s : State) : (setI w s).pc = s.pc := rfl
@[simp] theorem setI_stack (w : Word) (s : State) : (setI w s).stack = s.stack := rfl
@[simp] theorem setI_sp (w : Word) (s : State) : (setI w s).sp = s.sp := rfl
@[simp] theorem setI_dt (w : Word) (s : State) : (setI w s).dt = s.dt := rfl
@[simp] theorem setI_st (w : Word) (s : State) : (setI w s).st = s.st := rfl
@[simp] theorem setI_mem (w : Word) (s : State) : (setI w s).mem = s.mem := rfl
@[simp] theorem setI_fb (w : Word) (s : State) : (setI w s).fb = s.fb := rfl
@[simp] theorem setI_dirty (w : Word) (s : State) : (setI w s).dirty = s.dirty := rfl
@[simp] theorem setI_status (w : Word) (s : State) : (setI w s).status = s.status := rfl
@[simp] theorem setI_loaded (w : Word) (s : State) : (setI w s).loaded = s.loaded := rfl
@[simp] theorem setI_started (w : Word) (s : State) : (setI w s).started = s.started := rfl
@[simp] theorem setI_draw (w : Word) (s : State) : (setI w s).draw = s.draw := rfl
@[simp] theorem setI_draws (w : Word) (s : State) : (setI w s).draws = s.draws := rfl
@[simp] theorem setI_host (w : Word) (s : State) : (setI w s).host = s.host := rfl

@[simp] theorem setPc_v (w : Word) (s : State) : (setPc w s).v = s.v := rfl
@[simp] theorem setPc_i (w : Word) (s : State) : (setPc w s).i = s.i := rfl
@[simp] theorem setPc_pc (w : Word) (s : State) : (setPc w s).pc = w := rfl
@[simp] theorem setPc_stack (w : Word) (s : State) : (setPc w s).stack = s.stack := rfl
@[simp] theorem setPc_sp (w : Word) (s : State) : (setPc w s).sp = s.sp := rfl
@[simp] theorem setPc_dt (w : Word) (s : State) : (setPc w s).dt = s.dt := rfl
@[simp] theorem setPc_st (w : Word) (s : State) : (setPc w s).st = s.st := rfl
@[simp] theorem setPc_mem (w : Word) (s : State) : (setPc w s).mem = s.mem := rfl
@[simp] theorem setPc_fb (w : Word) (s : State) : (setPc w s).fb = s.fb := rfl
@[simp] theorem setPc_dirty (w : Word) (s : State) : (setPc w s).dirty = s.dirty := rfl
@[simp] theorem setPc_status (w : Word) (s : State) : (setPc w s).status = s.status := rfl
@[simp] theorem setPc_loaded (w : Word) (s : State) : (setPc w s).loaded = s.loaded := rfl
@[simp] theorem setPc_started (w : Word) (s : State) : (setPc w s).started = s.started := rfl
@[simp] theorem setPc_draw (w : Word) (s : State) : (setPc w s).draw = s.draw := rfl
@[simp] theorem setPc_draws (w : Word) (s : State) : (setPc w s).draws = s.draws := rfl
@[simp] theorem setPc_host (w : Word) (s : State) : (setPc w s).host = s.host := rfl

@[simp] theorem advance_v (s : State) : (advance s).v = s.v := rfl
@[simp] theorem advance_i (s : State) : (advance s).i = s.i := rfl
@[simp] theorem advance_pc (s : State) : (advance s).pc = s.pc + 2 := rfl
@[simp] theorem advance_stack (s : State) : (advance s).stack = s.stack := rfl
@[simp] theorem advance_sp (s : State) : (advance s).sp = s.sp := rfl
@[simp] theorem advance_dt (s : State) : (advance s).dt = s.dt := rfl
@[simp] theorem advance_st (s : State) : (advance s).st = s.st := rfl
@[simp] theorem advance_mem (s : State) : (advance s).mem = s.mem := rfl
@[simp] theorem advance_fb (s : State) : (advance s).fb = s.fb := rfl
@[simp] theorem advance_dirty (s : State) : (advance s).dirty = s.dirty := rfl
@[simp] theorem advance_status (s : State) : (advance s).status = s.status := rfl
@[simp] theorem advance_loaded (s : State) : (advance s).loaded = s.loaded := rfl
@[simp] theorem advance_started (s : State) : (advance s).started = s.started := rfl
@[simp] theorem advance_draw (s : State) : (advance s).draw = s.draw := rfl
@[simp] theorem advance_draws (s : State) : (advance s).draws = s.draws := rfl
@[simp] theorem advance_host (s : State) : (advance s).host = s.host := rfl

@[simp] theorem skipIf_v (c : Bool) (s : State) : (skipIf c s).v = s.v := rfl
@[simp] theorem skipIf_i (c : Bool) (s : State) : (skipIf c s).i = s.i := rfl
@[simp] theorem skipIf_pc (c : Bool) (s : State) : (skipIf c s).pc = if c then s.pc + 4 else s.pc + 2 := rfl
@[simp] theorem skipIf_stack (c : Bool) (s : State) : (skipIf c s).stack = s.stack := rfl
@[simp] theorem skipIf_sp (c : Bool) (s : State) : (skipIf c s).sp = s.sp := rfl
@[simp] theorem skipIf_dt (c : Bool) (s : State) : (skipIf c s).dt = s.dt := rfl
@[simp] theorem skipIf_st (c : Bool) (s : State) : (skipIf c s).st = s.st := rfl
@[simp] theorem skipIf_mem (c : Bool) (s : State) : (skipIf c s).mem = s.mem := rfl
@[simp] theorem skipIf_fb (c : Bool) (s : State) : (skipIf c s).fb = s.fb := rfl
@[simp] theorem skipIf_dirty (c : Bool) (s : State) : (skipIf c s).dirty = s.dirty := rfl
@[simp] theorem skipIf_status (c : Bool) (s : State) : (skipIf c s).status = s.status := rfl
@[simp] theorem skipIf_loaded (c : Bool) (s : State) : (skipIf c s).loaded = s.loaded := rfl
@[simp] theorem skipIf_started (c : Bool) (s : State) : (skipIf c s).started = s.started := rfl
@[simp] theorem skipIf_draw (c : Bool) (s : State) : (skipIf c s).draw = s.draw := rfl
@[simp] theorem skipIf_draws (c : Bool) (s : State) : (skipIf c s).draws = s.draws := rfl
@[simp] theorem skipIf_host (c : Bool) (s : State) : (skipIf c s).host = s.host := rfl

@[simp] theorem setDt_v (w : Byte) (s : State) : (setDt w s).v = s.v := rfl
@[simp] theorem setDt_i (w : Byte) (s : State) : (setDt w s).i = s.i := rfl
@[simp] theorem setDt_pc (w : Byte) (s : State) : (setDt w s).pc = s.pc := rfl
@[simp] theorem setDt_stack (w : Byte) (s : State) : (setDt w s).stack = s.stack := rfl
@[simp] theorem setDt_sp (w : Byte) (s : State) : (setDt w s).sp = s.sp := rfl
@[simp] theorem setDt_dt (w : Byte) (s : State) : (setDt w s).dt = w := rfl
@[simp] theorem setDt_st (w : Byte) (s : State) : (setDt w s).st = s.st := rfl
@[simp] theorem setDt_mem (w : Byte) (s : State) : (setDt w s).mem = s.mem := rfl
@[simp] theorem setDt_fb (w : Byte) (s : State) : (setDt w s).fb = s.fb := rfl
@[simp] theorem setDt_dirty (w : Byte) (s : State) : (setDt w s).dirty = s.dirty := rfl
@[simp] theorem setDt_status (w : Byte) (s : State) : (setDt w s).status = s.status := rfl
@[simp] theorem setDt_loaded (w : Byte) (s : State) : (setDt w s).loaded = s.loaded := rfl
@[simp] theorem setDt_started (w : Byte) (s : State) : (setDt w s).started = s.started := rfl
@[simp] theorem setDt_draw (w : Byte) (s : State) : (setDt w s).draw = s.draw := rfl
@[simp] theorem setDt_draws (w : Byte) (s : State) : (setDt w s).draws = s.draws := rfl
@[simp] theorem setDt_host (w : Byte) (s : State) : (setDt w s).host = s.host := rfl

@[simp] theorem setSt_v (w : Byte) (s : State) : (setSt w s).v = s.v := rfl
@[simp] theorem setSt_i (w : Byte) (s : State) : (setSt w s).i = s.i := rfl
@[simp] theorem setSt_pc (w : Byte) (s : State) : (setSt w s).pc = s.pc := rfl
@[simp] theorem setSt_stack (w : Byte) (s : State) : (setSt w s).stack = s.stack := rfl
@[simp] theorem setSt_sp (w : Byte) (s : State) : (setSt w s).sp = s.sp := rfl
@[simp] theorem setSt_dt (w : Byte) (s : State) : (setSt w s).dt = s.dt := rfl
@[simp] theorem setSt_st (w : Byte) (s : State) : (setSt w s).st = w := rfl
@[simp] theorem setSt_mem (w : Byte) (s : State) : (setSt w s).mem = s.mem := rfl
@[simp] theorem setSt_fb (w : Byte) (s : State) : (setSt w s).fb = s.fb := rfl
@[simp] theorem setSt_dirty (w : Byte) (s : State) : (setSt w s).dirty = s.dirty := rfl
@[simp] theorem setSt_status (w : Byte) (s : State) : (setSt w s).status = s.status := rfl
@[simp] theorem setSt_loaded (w : Byte) (s : State) : (setSt w s).loaded = s.loaded := rfl
@[simp] theorem setSt_started (w : Byte) (s : State) : (setSt w s).started = s.started := rfl
@[simp] theorem setSt_draw (w : Byte) (s : State) : (setSt w s).draw = s.draw := rfl
@[simp] theorem setSt_draws (w : Byte) (s : State) : (setSt w s).draws = s.draws := rfl
@[simp] theorem setSt_host (w : Byte) (s : State) : (setSt w s).host = s.host := rfl

@[simp] theorem setMem_v (m : Memory) (s : State) : (setMem m s).v = s.v := rfl
@[simp] theorem setMem_i (m : Memory) (s : State) : (setMem m s).i = s.i := rfl
@[simp] theorem setMem_pc (m : Memory) (s : State) : (setMem m s).pc = s.pc := rfl
@[simp] theorem setMem_stack (m : Memory) (s : State) : (setMem m s).stack = s.stack := rfl
@[simp] theorem setMem_sp (m : Memory) (s : State) : (setMem m s).sp = s.sp := rfl
@[simp] theorem setMem_dt (m : Memory) (s : State) : (setMem m s).dt = s.dt := rfl
@[simp] theorem setMem_st (m : Memory) (s : State) : (setMem m s).st = s.st := rfl
@[simp] theorem setMem_mem (m : Memory) (s : State) : (setMem m s).mem = m := rfl
@[simp] theorem setMem_fb (m : Memory) (s : State) : (setMem m s).fb = s.fb := rfl
@[simp] theorem setMem_dirty (m : Memory) (s : State) : (setMem m s).dirty = s.dirty := rfl
@[simp] theorem setMem_status (m : Memory) (s : State) : (setMem m s).status = s.status := rfl
@[simp] theorem setMem_loaded (m : Memory) (s : State) : (setMem m s).loaded = s.loaded := rfl
@[simp] theorem setMem_started (m : Memory) (s : State) : (setMem m s).started = s.started := rfl
@[simp] theorem setMem_draw (m : Memory) (s : State) : (setMem m s).draw = s.draw := rfl
@[simp] theorem setMem_draws (m : Memory) (s : State) : (setMem m s).draws = s.draws := rfl
@[simp] theorem setMem_host (m : Memory) (s : State) : (setMem m s).host = s.host := rfl

@[simp] theorem setScreen_v (g : Grid) (d : Bool) (s : State) : (setScreen g d s).v = s.v := rfl
@[simp] theorem setScreen_i (g : Grid) (d : Bool) (s : State) : (setScreen g d s).i = s.i := rfl
@[simp] theorem setScreen_pc (g : Grid) (d : Bool) (s : State) : (setScreen g d s).pc = s.pc := rfl
@[simp] theorem setScreen_stack (g : Grid) (d : Bool) (s : State) : (setScreen g d s).stack = s.stack := rfl
@[simp] theorem setScreen_sp (g : Grid) (d : Bool) (s : State) : (setScreen g d s).sp = s.sp := rfl
@[simp] theorem setScreen_dt (g : Grid) (d : Bool) (s : State) : (setScreen g d s).dt = s.dt := rfl
@[simp] theorem setScreen_st (g : Grid) (d : Bool) (s : State) : (setScreen g d s).st = s.st := rfl
@[simp] theorem setScreen_mem (g : Grid) (d : Bool) (s : State) : (setScreen g d s).mem = s.mem := rfl
@[simp] theorem setScreen_fb (g : Grid) (d : Bool) (s : State) : (setScreen g d s).fb = g := rfl
@[simp] theorem setScreen_dirty (g : Grid) (d : Bool) (s : State) : (setScreen g d s).dirty = d := rfl
@[simp] theorem setScreen_status (g : Grid) (d : Bool) (s : State) : (setScreen g d s).status = s.status := rfl
@[simp] theorem setScreen_loaded (g : Grid) (d : Bool) (s : State) : (setScreen g d s).loaded = s.loaded := rfl
@[simp] theorem setScreen_started (g : Grid) (d : Bool) (s : State) : (setScreen g d s).started = s.started := rfl
@[simp] theorem setScreen_draw (g : Grid) (d : Bool) (s : State) : (setScreen g d s).draw = s.draw := rfl
@[simp] theorem setScreen_draws (g : Grid) (d : Bool) (s : State) : (setScreen g d s).draws = s.draws := rfl
@[simp] theorem setScreen_host (g : Grid) (d : Bool) (s : State) : (setScreen g d s).host = s.host := rfl

@[simp] theorem setStatus_v (u : Status) (s : State) : (setStatus u s).v = s.v := rfl
@[simp] theorem setStatus_i (u : Status) (s : State) : (setStatus u s).i = s.i := rfl
@[simp] theorem setStatus_pc (u : Status) (s : State) : (setStatus u s).pc = s.pc := rfl
@[simp] theorem setStatus_stack (u : Status) (s : State) : (setStatus u s).stack = s.stack := rfl
@[simp] theorem setStatus_sp (u : Status) (s : State) : (setStatus u s).sp = s.sp := rfl
@[simp] theorem setStatus_dt (u : Status) (s : State) : (setStatus u s).dt = s.dt := rfl
@[simp] theorem setStatus_st (u : Status) (s : State) : (setStatus u s).st = s.st := rfl
@[simp] theorem setStatus_mem (u : Status) (s : State) : (setStatus u s).mem = s.mem := rfl
@[simp] theorem setStatus_fb (u : Status) (s : State) : (setStatus u s).fb = s.fb := rfl
@[simp] theorem setStatus_dirty (u : Status) (s : State) : (setStatus u s).dirty = s.dirty := rfl
@[simp] theorem setStatus_status (u : Status) (s : State) : (setStatus u s).status = u := rfl
@[simp] theorem setStatus_loaded (u : Status) (s : State) : (setStatus u s).loaded = s.loaded := rfl
@[simp] theorem setStatus_started (u : Status) (s : State) : (setStatus u s).started = s.started := rfl
@[simp] theorem setStatus_draw (u : Status) (s : State) : (setStatus u s).draw = s.draw := rfl
@[simp] theorem setStatus_draws (u : Status) (s : State) : (setStatus u s).draws = s.draws := rfl
@[simp] theorem setStatus_host (u : Status) (s : State) : (setStatus u s).host = s.host := rfl

@[simp] theorem raiseError_v (c : Cause) (w : Option Word) (a : Option Nat) (s : State) : (raiseError c w a s).v = s.v := rfl
@[simp] theorem raiseError_i (c : Cause) (w : Option Word) (a : Option Nat) (s : State) : (raiseError c w a s).i = s.i := rfl
@[simp] theorem raiseError_pc (c : Cause) (w : Option Word) (a : Option Nat) (s : State) : (raiseError c w a s).pc = s.pc := rfl
@[simp] theorem raiseError_stack (c : Cause) (w : Option Word) (a : Option Nat) (s : State) : (raiseError c w a s).stack = s.stack := rfl
@[simp] theorem raiseError_sp (c : Cause) (w : Option Word) (a : Option Nat) (s : State) : (raiseError c w a s).sp = s.sp := rfl
@[simp] theorem raiseError_dt (c : Cause) (w : Option Word) (a : Option Nat) (s : State) : (raiseError c w a s).dt = s.dt := rfl
@[simp] theorem raiseError_st (c : Cause) (w : Option Word) (a : Option Nat) (s : State) : (raiseError c w a s).st = s.st := rfl
@[simp] theorem raiseError_mem (c : Cause) (w : Option Word) (a : Option Nat) (s : State) : (raiseError c w a s).mem = s.mem := rfl
@[simp] theorem raiseError_fb (c : Cause) (w : Option Word) (a : Option Nat) (s : State) : (raiseError c w a s).fb = s.fb := rfl
@[simp] theorem raiseError_dirty (c : Cause) (w : Option Word) (a : Option Nat) (s : State) : (raiseError c w a s).dirty = s.dirty := rfl
@[simp] theorem raiseError_status (c : Cause) (w : Option Word) (a : Option Nat) (s : State) : (raiseError c w a s).status = .faulted { cause := c, word := w, pc := s.pc, addr := a } := rfl
@[simp] theorem raiseError_loaded (c : Cause) (w : Option Word) (a : Option Nat) (s : State) : (raiseError c w a s).loaded = s.loaded := rfl
@[simp] theorem raiseError_started (c : Cause) (w : Option Word) (a : Option Nat) (s : State) : (raiseError c w a s).started = s.started := rfl
@[simp] theorem raiseError_draw (c : Cause) (w : Option Word) (a : Option Nat) (s : State) : (raiseError c w a s).draw = s.draw := rfl
@[simp] theorem raiseError_draws (c : Cause) (w : Option Word) (a : Option Nat) (s : State) : (raiseError c w a s).draws = s.draws := rfl
@[simp] theorem raiseError_host (c : Cause) (w : Option Word) (a : Option Nat) (s : State) : (raiseError c w a s).host = s.host := rfl

@[simp] theorem beginStep_v (r : Option Byte) (s : State) : (beginStep r s).v = s.v := rfl
@[simp] theorem beginStep_i (r : Option Byte) (s : State) : (beginStep r s).i = s.i := rfl
@[simp] theorem beginStep_pc (r : Option Byte) (s : State) : (beginStep r s).pc = s.pc := rfl
@[simp] theorem beginStep_stack (r : Option Byte) (s : State) : (beginStep r s).stack = s.stack := rfl
@[simp] theorem beginStep_sp (r : Option Byte) (s : State) : (beginStep r s).sp = s.sp := rfl
@[simp] theorem beginStep_dt (r : Option Byte) (s : State) : (beginStep r s).dt = s.dt := rfl
@[simp] theorem beginStep_st (r : Option Byte) (s : State) : (beginStep r s).st = s.st := rfl
@[simp] theorem beginStep_mem (r : Option Byte) (s : State) : (beginStep r s).mem = s.mem := rfl
@[simp] theorem beginStep_fb (r : Option Byte) (s : State) : (beginStep r s).fb = s.fb := rfl
@[simp] theorem beginStep_dirty (r : Option Byte) (s : State) : (beginStep r s).dirty = s.dirty := rfl
@[simp] theorem beginStep_status (r : Option Byte) (s : State) : (beginStep r s).status = s.status := rfl
@[simp] theorem beginStep_loaded (r : Option Byte) (s : State) : (beginStep r s).loaded = s.loaded := rfl
@[simp] theorem beginStep_started (r : Option Byte) (s : State) : (beginStep r s).started = true := rfl
@[simp] theorem beginStep_draw (r : Option Byte) (s : State) : (beginStep r s).draw = r := rfl
@[simp] theorem beginStep_draws (r : Option Byte) (s : State) : (beginStep r s).draws = s.draws := rfl
@[simp] theorem beginStep_host (r : Option Byte) (s : State) : (beginStep r s).host = s.host := rfl

@[simp] theorem countDraw_v (s : State) : (countDraw s).v = s.v := rfl
@[simp] theorem countDraw_i (s : State) : (countDraw s).i = s.i := rfl
@[simp] theorem countDraw_pc (s : State) : (countDraw s).pc = s.pc := rfl
@[simp] theorem countDraw_stack (s : State) : (countDraw s).stack = s.stack := rfl
@[simp] theorem countDraw_sp (s : State) : (countDraw s).sp = s.sp := rfl
@[simp] theorem countDraw_dt (s : State) : (countDraw s).dt = s.dt := rfl
@[simp] theorem countDraw_st (s : State) : (countDraw s).st = s.st := rfl
@[simp] theorem countDraw_mem (s : State) : (countDraw s).mem = s.mem := rfl
@[simp] theorem countDraw_fb (s : State) : (countDraw s).fb = s.fb := rfl
@[simp] theorem countDraw_dirty (s : State) : (countDraw s).dirty = s.dirty := rfl
@[simp] theorem countDraw_status (s : State) : (countDraw s).status = s.status := rfl
@[simp] theorem countDraw_loaded (s : State) : (countDraw s).loaded = s.loaded := rfl
@[simp] theorem countDraw_started (s : State) : (countDraw s).started = s.started := rfl
@[simp] theorem countDraw_draw (s : State) : (countDraw s).draw = s.draw := rfl
@[simp] theorem countDraw_draws (s : State) : (countDraw s).draws = s.draws + 1 := rfl
@[simp] theorem countDraw_host (s : State) : (countDraw s).host = s.host := rfl

/-! Reading a register after an update that writes none. -/

@[simp] theorem reg_setI (y : Nibble) (w : Word) (s : State) : reg y (setI w s) = reg y s := rfl
@[simp] theorem reg_setPc (y : Nibble) (w : Word) (s : State) : reg y (setPc w s) = reg y s := rfl
@[simp] theorem reg_advance (y : Nibble) (s : State) : reg y (advance s) = reg y s := rfl
@[simp] theorem reg_skipIf (y : Nibble) (c : Bool) (s : State) : reg y (skipIf c s) = reg y s := rfl
@[simp] theorem reg_setDt (y : Nibble) (w : Byte) (s : State) : reg y (setDt w s) = reg y s := rfl
@[simp] theorem reg_setSt (y : Nibble) (w : Byte) (s : State) : reg y (setSt w s) = reg y s := rfl
@[simp] theorem reg_setMem (y : Nibble) (m : Memory) (s : State) : reg y (setMem m s) = reg y s := rfl
@[simp] theorem reg_setScreen (y : Nibble) (g : Grid) (d : Bool) (s : State) : reg y (setScreen g d s) = reg y s := rfl
@[simp] theorem reg_setStatus (y : Nibble) (u : Status) (s : State) : reg y (setStatus u s) = reg y s := rfl
@[simp] theorem reg_raiseError (y : Nibble) (c : Cause) (w : Option Word) (a : Option Nat) (s : State) : reg y (raiseError c w a s) = reg y s := rfl
@[simp] theorem reg_beginStep (y : Nibble) (r : Option Byte) (s : State) : reg y (beginStep r s) = reg y s := rfl
@[simp] theorem reg_countDraw (y : Nibble) (s : State) : reg y (countDraw s) = reg y s := rfl

end Sys2Proof.Machine
end

