-- ==== Sys2Proof/Laws/Registers.lean ====
section
/-! SUPPORT. Registers and the call stack: what a read answers after each write, and all that push and pop can do. -/

namespace Sys2Proof.Machine

theorem reg_setReg (x y : Nibble) (w : Byte) (s : State) :
    reg y (setReg x w s) = if y = x then w else reg y s := by
  simp only [reg, setReg, Vector.getElem_set, eq_comm (a := y), BitVec.toNat_inj]

@[simp] theorem reg_setReg_self (x : Nibble) (w : Byte) (s : State) : reg x (setReg x w s) = w := by
  simp [reg_setReg]

theorem reg_setReg_of_ne {x y : Nibble} (h : y ≠ x) (w : Byte) (s : State) : reg y (setReg x w s) = reg y s := by
  simp [reg_setReg, h]

/-- Two states that agree on every register have the same register file. -/
theorem v_ext {s t : State} (h : ∀ r, reg r t = reg r s) : t.v = s.v := by
  apply Vector.ext
  intro k hk
  have := h (BitVec.ofNat 4 k)
  have hk16 : k % 16 = k := Nat.mod_eq_of_lt hk
  simpa [reg, hk16] using this

/-- Writing a block of registers touches nothing but the register file. -/
theorem setRegsFrom_eq (k : Nat) (ws : List Byte) (s : State) :
    setRegsFrom k ws s = { s with v := (setRegsFrom k ws s).v } := by
  induction ws generalizing k s with
  | nil => rfl
  | cons w ws ih => rw [setRegsFrom, ih]; rfl

/-- All that a block of register writes does to a register. -/
theorem reg_setRegsFrom (k : Nat) (ws : List Byte) (s : State) (fits : k + ws.length ≤ Config.numRegs) (r : Nibble) :
    reg r (setRegsFrom k ws s) = if k ≤ r.toNat then ws.getD (r.toNat - k) (reg r s) else reg r s := by
  induction ws generalizing k s with
  | nil => simp [setRegsFrom]
  | cons w ws ih =>
    simp only [List.length_cons] at fits
    have k_lt : k < 16 := by simp only [Config.numRegs] at fits; omega
    have r_eq : r = BitVec.ofNat 4 k ↔ r.toNat = k := by
      rw [← BitVec.toNat_inj, BitVec.toNat_ofNat, Nat.mod_eq_of_lt k_lt]
    rw [setRegsFrom, ih (k + 1) _ (by omega), reg_setReg]
    by_cases below : r.toNat < k
    · have not_k : r ≠ BitVec.ofNat 4 k := fun h => by have := r_eq.mp h; omega
      simp [not_k, Nat.not_le.mpr below, show ¬ k + 1 ≤ r.toNat by omega]
    · by_cases at_k : r.toNat = k
      · simp [r_eq.mpr at_k, Nat.mod_eq_of_lt k_lt]
      · have above : k + 1 ≤ r.toNat := by omega
        have not_k : r ≠ BitVec.ofNat 4 k := fun h => at_k (r_eq.mp h)
        obtain ⟨d, hd⟩ : ∃ d, r.toNat - k = d + 1 := ⟨r.toNat - k - 1, by omega⟩
        have hd' : r.toNat - (k + 1) = d := by omega
        simp [not_k, above, Nat.le_of_succ_le above, hd, hd']

/-- The bytes of `V0` to `Vx` are the registers' values in order. -/
theorem regsThrough_eq (x : Nibble) (s : State) :
    regsThrough x s = (List.range (x.toNat + 1)).map (fun k => reg (BitVec.ofNat 4 k) s) := by
  apply List.ext_getElem
  · have := x.isLt
    simp [regsThrough, blockLength]
    omega
  · intro k hk hk'
    simp only [List.length_map, List.length_range] at hk'
    have : k % 16 = k := Nat.mod_eq_of_lt (by have := x.isLt; omega)
    simp [regsThrough, reg, this]

@[simp] theorem regsThrough_length (x : Nibble) (s : State) : (regsThrough x s).length = x.toNat + 1 := by
  simp [regsThrough_eq]

/-- All that `push` can do (10_state R26). -/
theorem push_cases (a : Word) (s : State) :
    (s.sp.val = Config.stackDepth ∧ push a s = none) ∨
      ∃ h : s.sp.val < Config.stackDepth,
        push a s = some { s with stack := s.stack.set s.sp.val a h, sp := ⟨s.sp.val + 1, Nat.succ_lt_succ h⟩ } := by
  by_cases h : s.sp.val < Config.stackDepth
  · exact .inr ⟨h, by simp [push, h]⟩
  · exact .inl ⟨by have := s.sp.isLt; omega, by simp [push, h]⟩

/-- All that `pop` can do (10_state R27). -/
theorem pop_cases (s : State) :
    (s.sp.val = 0 ∧ pop s = none) ∨
      0 < s.sp.val ∧ ∃ top : s.sp.val - 1 < Config.stackDepth,
        pop s = some (s.stack[s.sp.val - 1]'top, { s with sp := ⟨s.sp.val - 1, Nat.lt_succ_of_lt top⟩ }) := by
  by_cases h : 0 < s.sp.val
  · exact .inr ⟨h, by have := s.sp.isLt; omega, by simp [pop, h]⟩
  · exact .inl ⟨by omega, by simp [pop, h]⟩

end Sys2Proof.Machine
end

