-- ==== Sys2Proof/Laws/Step.lean ====
section
/-! SUPPORT. All that a step can do, said once: the cases of a transition, of a fetched instruction, and what any instruction
does to memory. -/

namespace Sys2Proof.Machine

/-- All that fetch, decode and execute can do where it answers a next state (30_encoding R91). -/
theorem runInstruction_cases {s t : State} (h : runInstruction s = .next t) :
    (Config.memSize ≤ s.pc.toNat + 1 ∧
        t = raiseError .fetchOutOfRange none
          (some (if Config.memSize ≤ s.pc.toNat then s.pc.toNat else s.pc.toNat + 1)) s) ∨
      (s.pc.toNat + 1 < Config.memSize ∧ ∃ w, fetchWord s.mem s.pc.toNat = .ok w ∧
        ((∃ e, decodeWord w = .error e) ∧ t = raiseError .malformedInstruction (some w) none s ∨
          ∃ i, decodeWord w = .ok i ∧ exec i s = .next t)) := by
  unfold runInstruction at h
  rcases fetchWord_cases s.mem s.pc.toNat with ⟨past, hf⟩ | ⟨inside, hf⟩
  · rw [hf] at h
    exact .inl ⟨past, by injection h with h; exact h.symm⟩
  · rw [hf] at h
    refine .inr ⟨inside, _, hf, ?_⟩
    cases hd : decodeWord (wordOfBytes (readByte s.mem s.pc.toNat) (readByte s.mem (s.pc.toNat + 1))) with
    | ok i => simp only [hd] at h; exact .inr ⟨i, rfl, h⟩
    | error e => simp only [hd] at h; exact .inl ⟨⟨e, rfl⟩, by injection h with h; exact h.symm⟩

/-- What a host event other than STEP leaves of a state (60_exceptions R220). -/
def AfterEvent (s t : State) : Prop :=
  t = s ∨ t = resetBlock s ∨ (∃ image, loadEnabled s = true ∧ t = loadImage image s) ∨ (∃ key, t = keyPress key s) ∨
    t = timerTick s ∨ t = dirtyClear s

/-- All that a STEP event can do where it answers a next state. -/
theorem stepEvent_cases {r : Option Byte} {s t : State} (h : stepEvent r s = .next t) :
    (s.status = .running ∧ runInstruction (beginStep r s) = .next t) ∨ ((∃ rec, s.status = .faulted rec) ∧ t = s) := by
  unfold stepEvent at h
  cases hs : s.status with
  | running => rw [hs] at h; exact .inl ⟨rfl, h⟩
  | faulted rec => rw [hs] at h; injection h with h; exact .inr ⟨⟨rec, rfl⟩, h.symm⟩
  | waitKey x => rw [hs] at h; cases h

/-- All that a step can do where it answers a next state: from `u`, the state with its oldest event taken off the host's list if
there was one, either an instruction runs or the state is one that an event leaves. -/
theorem step_cases {s t : State} (h : step s = .next t) :
    ∃ u : State, (∃ later, u = { s with host := later }) ∧
      ((∃ r, u.status = .running ∧ runInstruction (beginStep r u) = .next t) ∨ AfterEvent u t) := by
  unfold step transition at h
  split at h
  · rename_i no_event
    refine ⟨s, ⟨s.host, rfl⟩, ?_⟩
    unfold unscheduled at h
    split at h
    · rcases stepEvent_cases h with ⟨hr, he⟩ | ⟨-, rfl⟩
      · exact .inl ⟨none, hr, he⟩
      · exact .inr (.inl rfl)
    · rcases stepEvent_cases h with ⟨hr, he⟩ | ⟨-, rfl⟩
      · exact .inl ⟨none, hr, he⟩
      · exact .inr (.inl rfl)
    · injection h with h; exact .inr (.inl h.symm)
  · rename_i e later _
    refine ⟨{ s with host := later }, ⟨later, rfl⟩, ?_⟩
    cases e with
    | step r =>
      rcases stepEvent_cases h with ⟨hr, he⟩ | ⟨-, rfl⟩
      · exact .inl ⟨some r, hr, he⟩
      · exact .inr (.inl rfl)
    | reset => injection h with h; exact .inr (.inr (.inl h.symm))
    | load image =>
      simp only [applyEvent] at h
      split at h
      · rename_i enabled
        injection h with h
        exact .inr (.inr (.inr (.inl ⟨image, enabled, h.symm⟩)))
      · cases h
    | keyPress key => injection h with h; exact .inr (.inr (.inr (.inr (.inl ⟨key, h.symm⟩))))
    | timerTick => injection h with h; exact .inr (.inr (.inr (.inr (.inr (.inl h.symm)))))
    | dirtyClear => injection h with h; exact .inr (.inr (.inr (.inr (.inr (.inr h.symm)))))
    | readDirty => injection h with h; exact .inr (.inl h.symm)
    | snapshot => injection h with h; exact .inr (.inl h.symm)
    | readStatus => injection h with h; exact .inr (.inl h.symm)

/-- All that `storeThrough` can do (43_index_memory R173, R174). -/
theorem storeThrough_cases (i : Instr) (ws : List Byte) (s : State) :
    (∃ m, storeBytes s.i.toNat ws s.mem = (m, none) ∧ storeThrough i ws s = .next (advance (setMem m s))) ∨
      ∃ m bad, storeBytes s.i.toNat ws s.mem = (m, some bad) ∧
        storeThrough i ws s = .next (raiseError .outOfBounds (some (encode i)) (some bad) (setMem m s)) := by
  unfold storeThrough
  rw [show effectiveAddress s 0 = s.i.toNat from Nat.add_zero _]
  rcases hs : storeBytes s.i.toNat ws s.mem with ⟨m, _ | bad⟩
  · exact .inl ⟨m, rfl, rfl⟩
  · exact .inr ⟨m, bad, rfl, rfl⟩

/-- A block read answers bytes or an address, whatever its operands. -/
theorem readBlock_cases (m : Memory) (a n : Nat) :
    ((n = 0 ∨ a + n ≤ Config.memSize) ∧
        readBlock m a n = .ok ((List.range n).map (fun k => readByte m (a + k)))) ∨
      (0 < n ∧ Config.memSize < a + n ∧ readBlock m a n = .error (max a Config.memSize)) := by
  by_cases fits : n = 0 ∨ a + n ≤ Config.memSize
  · exact .inl ⟨fits, readBlock_ok m a n fits⟩
  · exact .inr ⟨by omega, by omega, readBlock_error m a n (by omega) (by omega)⟩

/-- What any instruction does to memory: nothing, or guarded stores from `I` upward. -/
theorem exec_mem {i : Instr} {s t : State} (h : exec i s = .next t) :
    t.mem = s.mem ∨ ∃ ws, t.mem = (storeBytes s.i.toNat ws s.mem).1 := by
  have stores : ∀ {i' ws}, storeThrough i' ws s = .next t → ∃ ws, t.mem = (storeBytes s.i.toNat ws s.mem).1 := by
    intro i' ws h
    rcases storeThrough_cases i' ws s with ⟨m, hm, e⟩ | ⟨m, bad, hm, e⟩ <;> rw [e] at h <;> injection h with h <;>
      exact ⟨ws, by rw [hm, ← h]; rfl⟩
  cases i
  case ldB => exact .inr (stores h)
  case ldMemRegs => exact .inr (stores h)
  case ret =>
    left
    simp only [exec, execRet] at h
    rcases pop_cases s with ⟨-, e⟩ | ⟨-, _, e⟩ <;> rw [e] at h <;> injection h with h <;> rw [← h] <;> rfl
  case call nnn =>
    left
    simp only [exec, execCall] at h
    rcases push_cases (returnAddress s.pc) s with ⟨-, e⟩ | ⟨_, e⟩ <;> rw [e] at h <;> injection h with h <;> rw [← h] <;> rfl
  case drw x y n =>
    left
    simp only [exec, execDrw] at h
    split at h <;> injection h with h <;> rw [← h] <;> rfl
  case ldRegsMem x =>
    left
    simp only [exec, execLdRegsMem] at h
    split at h <;> injection h with h <;> rw [← h]
    · rfl
    · rw [setRegsFrom_eq]; rfl
  all_goals
    left
    injection h with h
    rw [← h]
    rfl

end Sys2Proof.Machine
end

