-- ==== Sys2Proof/Tests/Slice0.lean ====
section
/-! SUPPORT. The model's own tests. Expected results are the spec's: the vectors of 95_test_vectors (named in a comment) or the
worked examples of the instruction rules. At the end, one witness for the hypotheses of each statement that has any. -/

namespace Sys2Proof.Tests

open Sys2Proof Sys2Proof.Machine

/-! ### Ill-formed terms are refused (WellFormed) -/

theorem test_wf_class0_refused : wordWellFormed 0x0123#16 = false := by decide
theorem test_wf_class8_refused : wordWellFormed 0x8128#16 = false := by decide
theorem test_wf_classF_refused : wordWellFormed 0xF1A5#16 = false := by decide
theorem test_wf_others_accepted : wordWellFormed 0x5121#16 = true ∧ wordWellFormed 0xEFFF#16 = true := by decide
/-- W1: one byte over. -/
theorem test_wf_image_refused : imageWellFormed (List.replicate 3585 0) = false := by
  rw [imageWellFormed, List.length_replicate]; decide
theorem test_wf_image_accepted : imageWellFormed (List.replicate 3584 0) = true := by
  rw [imageWellFormed, List.length_replicate]; decide
theorem test_wf_font_length_refused : fontWellFormed (fontGlyphs.drop 1) = false := by decide
theorem test_wf_font_low_bits_refused : fontWellFormed (0xF1 :: fontGlyphs.drop 1) = false := by decide
theorem test_wf_params : Config.params.wellFormed = true := by decide
theorem test_wf_params_font_refused : ({ Config.params with fontBase := 0x1B1 } : Params).wellFormed = false := by decide
theorem test_wf_params_base_refused : ({ Config.params with memSize := 0x1FF } : Params).wellFormed = false := by decide
theorem test_wf_params_size_refused : ({ Config.params with memSize := 0x10001 } : Params).wellFormed = false := by decide

/-! ### Decoding, each word written out bit by bit from its row -/

theorem test_decode_cls : decodeWord 0b0000000011100000#16 = .ok .cls := by decide
theorem test_decode_ret : decodeWord 0b0000000011101110#16 = .ok .ret := by decide
theorem test_decode_jp : decodeWord 0b0001001010100100#16 = .ok (.jp 0x2A4) := by decide
theorem test_decode_call : decodeWord 0b0010001100000000#16 = .ok (.call 0x300) := by decide
theorem test_decode_seImm : decodeWord 0b0011000100010000#16 = .ok (.seImm 1 0x10) := by decide
theorem test_decode_sneImm : decodeWord 0b0100001101000010#16 = .ok (.sneImm 3 0x42) := by decide
theorem test_decode_seReg : decodeWord 0b0101000100100001#16 = .ok (.seReg 1 2 1) := by decide
theorem test_decode_ldImm : decodeWord 0b0110101001000010#16 = .ok (.ldImm 0xA 0x42) := by decide
theorem test_decode_addImm : decodeWord 0b0111001100000010#16 = .ok (.addImm 3 0x02) := by decide
theorem test_decode_ldReg : decodeWord 0b1000000100100000#16 = .ok (.ldReg 1 2) := by decide
theorem test_decode_orReg : decodeWord 0b1000000100100001#16 = .ok (.orReg 1 2) := by decide
theorem test_decode_andReg : decodeWord 0b1000000100100010#16 = .ok (.andReg 1 2) := by decide
theorem test_decode_xorReg : decodeWord 0b1000000100100011#16 = .ok (.xorReg 1 2) := by decide
theorem test_decode_addReg : decodeWord 0b1000000100100100#16 = .ok (.addReg 1 2) := by decide
theorem test_decode_sub : decodeWord 0b1000000100100101#16 = .ok (.sub 1 2) := by decide
theorem test_decode_shr : decodeWord 0b1000000100100110#16 = .ok (.shr 1 2) := by decide
theorem test_decode_subn : decodeWord 0b1000000100100111#16 = .ok (.subn 1 2) := by decide
theorem test_decode_shl : decodeWord 0b1000000100101110#16 = .ok (.shl 1 2) := by decide
theorem test_decode_sneReg : decodeWord 0b1001000100100111#16 = .ok (.sneReg 1 2 7) := by decide
theorem test_decode_ldI : decodeWord 0b1010000100100011#16 = .ok (.ldI 0x123) := by decide
theorem test_decode_jpV0 : decodeWord 0b1011001100000000#16 = .ok (.jpV0 0x300) := by decide
theorem test_decode_rnd : decodeWord 0b1100001100001111#16 = .ok (.rnd 3 0x0F) := by decide
theorem test_decode_drw : decodeWord 0b1101000000010100#16 = .ok (.drw 0 1 4) := by decide
theorem test_decode_classE : decodeWord 0b1110000110011110#16 = .ok (.classE 0x19E) := by decide
theorem test_decode_ldVxDt : decodeWord 0b1111001000000111#16 = .ok (.ldVxDt 2) := by decide
theorem test_decode_ldVxK : decodeWord 0b1111001100001010#16 = .ok (.ldVxK 3) := by decide
theorem test_decode_ldDt : decodeWord 0b1111000100010101#16 = .ok (.ldDt 1) := by decide
theorem test_decode_ldSt : decodeWord 0b1111010000011000#16 = .ok (.ldSt 4) := by decide
theorem test_decode_addI : decodeWord 0b1111001000011110#16 = .ok (.addI 2) := by decide
theorem test_decode_ldF : decodeWord 0b1111000000101001#16 = .ok (.ldF 0) := by decide
theorem test_decode_ldB : decodeWord 0b1111000100110011#16 = .ok (.ldB 1) := by decide
theorem test_decode_ldMemRegs : decodeWord 0b1111001001010101#16 = .ok (.ldMemRegs 2) := by decide
theorem test_decode_ldRegsMem : decodeWord 0b1111001001100101#16 = .ok (.ldRegsMem 2) := by decide
/-- E1, E5, E10. -/
theorem test_decode_malformed :
    decodeWord 0x0000#16 = .error (.malformed 0x0000#16) ∧ decodeWord 0x8128#16 = .error (.malformed 0x8128#16) ∧
      decodeWord 0xF1A5#16 = .error (.malformed 0xF1A5#16) := by decide
theorem test_decode_bytes : decode [0x12, 0xA4, 0xFF] = .ok (.jp 0x2A4, [0xFF]) ∧ decode [0x12] = .error .truncated := by
  decide
theorem test_decodeTableWord :
    decodeTableWord 16 0xF255 = some (.ldMemRegs 2) ∧ decodeTableWord 16 0x0123 = none := by decide

/-! ### One step -/

/-- Reset, with the word `w` where the first step fetches it. -/
def at200 (w : Nat) : State := State.reset.withFetchWord 16 w

/-- The step answers a next state of which `p` holds. -/
def stepGives (s : State) (p : State → Bool) : Bool :=
  match step s with
  | .next t => p t
  | .fault _ | .refused _ => false

/-- The event answers a next state of which `p` holds. -/
def eventGives (e : HostEvent) (s : State) (p : State → Bool) : Bool :=
  match applyEvent e s with
  | .next t => p t
  | .fault _ | .refused _ => false

/-- Bytes put into memory. -/
def poke (a : Nat) (bytes : List Byte) (s : State) : State := setMem (putBytes a bytes s.mem) s

/-- The error record of a `FAULTED` status. -/
def recordIs (t : State) (cause : Cause) (word : Option Word) (pc : Word) (addr : Option Nat) : Bool :=
  decide (t.status = .faulted { cause := cause, word := word, pc := pc, addr := addr })

/-- D1. -/
theorem test_cls : stepGives (setScreen (setPix clearGrid 3 4 true) true (at200 0x00E0))
    (fun t => !pix t.fb 3 4 && !t.dirty && t.pc == 0x202) = true := by decide
/-- R120's example. -/
theorem test_ret : stepGives { at200 0x00EE with stack := (at200 0).stack.set 0 0x204, sp := 1 }
    (fun t => t.pc == 0x204 && t.sp == 0) = true := by decide
/-- T3. -/
theorem test_ret_underflow : stepGives (at200 0x00EE)
    (fun t => recordIs t .stackUnderflow (some 0x00EE) 0x200 none && t.pc == 0x200) = true := by decide
/-- T5. -/
theorem test_jp : stepGives (at200 0x12A4) (fun t => t.pc == 0x2A4) = true := by decide
/-- T1. -/
theorem test_call : stepGives (at200 0x2300) (fun t => t.stack[0] == 0x202 && t.sp == 1 && t.pc == 0x300) = true := by decide
/-- T4, at 0x200. -/
theorem test_call_overflow : stepGives { at200 0x2400 with sp := 16 }
    (fun t => recordIs t .stackOverflow (some 0x2400) 0x200 none && t.sp == 16 && t.pc == 0x200) = true := by decide
/-- W7. -/
theorem test_seImm : (stepGives (setReg 1 0x10 (at200 0x3110)) (fun t => t.pc == 0x204)
    && stepGives (setReg 1 0x10 (at200 0x3111)) (fun t => t.pc == 0x202)) = true := by decide
/-- T11, T12. -/
theorem test_sneImm : (stepGives (setReg 3 0x42 (at200 0x4342)) (fun t => t.pc == 0x202)
    && stepGives (setReg 3 0x42 (at200 0x4341)) (fun t => t.pc == 0x204)) = true := by decide
/-- E13 and W7. -/
theorem test_seReg : (stepGives (setReg 1 7 (setReg 2 7 (at200 0x5121))) (fun t => t.pc == 0x204)
    && stepGives (setReg 1 0x10 (setReg 2 0x11 (at200 0x5120))) (fun t => t.pc == 0x202)) = true := by decide
/-- E14, T13. -/
theorem test_sneReg : (stepGives (at200 0x9127) (fun t => t.pc == 0x202)
    && stepGives (setReg 2 7 (setReg 3 8 (at200 0x9230))) (fun t => t.pc == 0x204)) = true := by decide
/-- A1. -/
theorem test_ldImm : stepGives (at200 0x6A42) (fun t => reg 0xA t == 0x42 && t.pc == 0x202) = true := by decide
/-- A2. -/
theorem test_addImm_wraps : stepGives (setReg 3 0xFF (setReg 0xF 0x07 (at200 0x7302)))
    (fun t => reg 3 t == 0x01 && reg 0xF t == 0x07) = true := by decide
/-- A4. -/
theorem test_ldReg : stepGives (setReg 1 5 (setReg 2 9 (at200 0x8120))) (fun t => reg 1 t == 9) = true := by decide
/-- A5. -/
theorem test_orReg : stepGives (setReg 1 0x0F (setReg 2 0xF0 (setReg 0xF 0x33 (at200 0x8121))))
    (fun t => reg 1 t == 0xFF && reg 0xF t == 0x33) = true := by decide
/-- A6. -/
theorem test_andReg : stepGives (setReg 1 0x3C (setReg 2 0x0F (at200 0x8122))) (fun t => reg 1 t == 0x0C) = true := by decide
/-- A7. -/
theorem test_xorReg : stepGives (setReg 1 0xFF (setReg 2 0x0F (at200 0x8123))) (fun t => reg 1 t == 0xF0) = true := by decide
/-- A11. -/
theorem test_addReg_vf_destination : stepGives (setReg 0xF 0xFF (setReg 1 0x02 (at200 0x8F14)))
    (fun t => reg 0xF t == 0x01) = true := by decide
/-- A12. -/
theorem test_addReg_vf_addend : stepGives (setReg 1 0x10 (setReg 0xF 0xF0 (at200 0x81F4)))
    (fun t => reg 1 t == 0x00 && reg 0xF t == 1) = true := by decide
/-- A14, A16. -/
theorem test_sub : (stepGives (setReg 1 7 (setReg 2 7 (at200 0x8125))) (fun t => reg 1 t == 0 && reg 0xF t == 0)
    && stepGives (setReg 1 5 (setReg 0xF 3 (at200 0x81F5))) (fun t => reg 1 t == 4 && reg 0xF t == 1)) = true := by decide
/-- A15. -/
theorem test_sub_vf_destination : stepGives (setReg 0xF 5 (setReg 2 3 (at200 0x8F25))) (fun t => reg 0xF t == 0xFE) = true := by
  decide
/-- A17, A19. -/
theorem test_shr : (stepGives (setReg 1 0x05 (setReg 2 0xFF (at200 0x8126)))
      (fun t => reg 1 t == 0x02 && reg 0xF t == 1 && reg 2 t == 0xFF)
    && stepGives (setReg 0xF 0xFF (at200 0x8F06)) (fun t => reg 0xF t == 0)) = true := by decide
/-- A20, A23. -/
theorem test_subn : (stepGives (setReg 1 3 (setReg 2 5 (at200 0x8127))) (fun t => reg 1 t == 2 && reg 0xF t == 1)
    && stepGives (setReg 1 3 (setReg 0xF 5 (at200 0x81F7))) (fun t => reg 1 t == 0xFE && reg 0xF t == 1)) = true := by decide
/-- A22. -/
theorem test_subn_vf_destination : stepGives (setReg 0xF 3 (setReg 2 5 (at200 0x8F27))) (fun t => reg 0xF t == 4) = true := by
  decide
/-- A24. -/
theorem test_shl : stepGives (setReg 1 0x81 (at200 0x810E)) (fun t => reg 1 t == 0x02 && reg 0xF t == 0x80) = true := by decide
/-- A26. -/
theorem test_shl_vf : stepGives (setReg 0xF 0x81 (at200 0x8F0E)) (fun t => reg 0xF t == 0) = true := by decide
/-- M1. -/
theorem test_ldI : stepGives (at200 0xA123) (fun t => t.i == 0x0123 && t.pc == 0x202) = true := by decide
/-- T10. -/
theorem test_jpV0 : stepGives (setReg 0 0xFF (at200 0xBFFF)) (fun t => t.pc == 0x10FE) = true := by decide
/-- A27, the byte given with the STEP event. -/
theorem test_rnd : stepGives { at200 0xC30F with host := [.step 0xAB] } (fun t => reg 3 t == 0x0B && t.pc == 0x202) = true := by
  decide
/-- With no byte named the step still completes, on the free value. -/
theorem test_rnd_free : stepGives (at200 0xC30F) (fun t => t.pc == 0x202 && t.draws == 1) = true := by decide
/-- D6. -/
theorem test_drw_clips : stepGives (setReg 0 60 (setReg 1 30 (setI 0x300 (poke 0x300 [0xFF, 0xFF, 0xFF, 0xFF] (at200 0xD014)))))
    (fun t => pix t.fb 60 30 && pix t.fb 63 31 && !pix t.fb 0 30 && !pix t.fb 59 31 && reg 0xF t == 0 && t.dirty) = true := by
  decide
/-- D9: `OLD_SET`. -/
theorem test_drw_collision : stepGives (setScreen (setPix clearGrid 1 0 true) false (setI 0x300 (poke 0x300 [0x80] (at200 0xD011))))
    (fun t => pix t.fb 0 0 && pix t.fb 1 0 && reg 0xF t == 1) = true := by decide
/-- K13, at 0x200. -/
theorem test_classE : stepGives (at200 0xE19E)
    (fun t => recordIs t .unimplemented (some 0xE19E) 0x200 none && t.pc == 0x200) = true := by decide
/-- R190's example. -/
theorem test_ldVxDt : stepGives (setDt 0x3C (at200 0xF207)) (fun t => reg 2 t == 0x3C) = true := by decide
/-- K7, at 0x200. -/
theorem test_ldVxK : stepGives (at200 0xF30A)
    (fun t => decide (t.status = .waitKey 3) && t.pc == 0x200 && reg 3 t == 0) = true := by decide
/-- K1. -/
theorem test_ldDt : stepGives (setReg 1 0x3C (at200 0xF115)) (fun t => t.dt == 0x3C && t.st == 0) = true := by decide
/-- K6. -/
theorem test_ldSt : stepGives (setReg 4 0x10 (at200 0xF418)) (fun t => t.st == 0x10 && t.dt == 0 && soundActive t) = true := by
  decide
/-- M4. -/
theorem test_addI_wraps : stepGives (setI 0xFFFF (setReg 1 2 (at200 0xF11E))) (fun t => t.i == 0x0001 && reg 0xF t == 0) = true := by
  decide
/-- M8. -/
theorem test_ldF_not_masked : stepGives (setReg 0 0xFF (at200 0xF029)) (fun t => t.i == 0x54B) = true := by decide
/-- M9. -/
theorem test_ldB : stepGives (setReg 1 194 (setI 0x300 (at200 0xF133)))
    (fun t => readByte t.mem 0x300 == 1 && readByte t.mem 0x301 == 9 && readByte t.mem 0x302 == 4 && t.i == 0x300) = true := by
  decide
/-- M13. -/
theorem test_ldB_partial : stepGives (setReg 1 123 (setI 0xFFE (at200 0xF133)))
    (fun t => readByte t.mem 0xFFE == 1 && readByte t.mem 0xFFF == 2
      && recordIs t .outOfBounds (some 0xF133) 0x200 (some 0x1000) && t.pc == 0x200) = true := by decide
/-- M14. -/
theorem test_ldMemRegs : stepGives (setReg 0 1 (setReg 1 2 (setReg 2 3 (setReg 3 9 (setI 0x300 (at200 0xF255))))))
    (fun t => readByte t.mem 0x300 == 1 && readByte t.mem 0x302 == 3 && readByte t.mem 0x303 == 0 && t.i == 0x300) = true := by
  decide
/-- M17. -/
theorem test_ldMemRegs_reserved : stepGives (setReg 2 5 (setI 0x1FE (at200 0xF355)))
    (fun t => recordIs t .outOfBounds (some 0xF355) 0x200 (some 0x1FE) && readByte t.mem 0x200 == 0xF3) = true := by decide
/-- M20: the font is read. -/
theorem test_ldRegsMem_font : stepGives (setI 0x050 (at200 0xF465))
    (fun t => reg 0 t == 0xF0 && reg 1 t == 0x90 && reg 3 t == 0x90 && reg 4 t == 0xF0 && reg 5 t == 0) = true := by decide
/-- M21. -/
theorem test_ldRegsMem_past_end : stepGives (setI 0xFFF (setReg 0 0x77 (at200 0xF165)))
    (fun t => recordIs t .readOutOfRange (some 0xF165) 0x200 (some 0x1000) && reg 0 t == 0x77) = true := by decide

/-! ### The step's own errors and the host's events -/

/-- R5: no program loaded. -/
theorem test_step_from_reset : stepGives State.reset
    (fun t => recordIs t .malformedInstruction (some 0x0000) 0x200 none && t.started && t.pc == 0x200) = true := by decide
/-- R11. -/
theorem test_fetch_past_end : stepGives (setPc 0xFFF State.reset)
    (fun t => recordIs t .fetchOutOfRange none 0xFFF (some 0x1000)) = true := by decide
/-- T10's next STEP. -/
theorem test_fetch_far_past_end : stepGives (setPc 0x10FE State.reset)
    (fun t => recordIs t .fetchOutOfRange none 0x10FE (some 0x10FE)) = true := by decide
/-- K10. -/
theorem test_keyPress : eventGives (.keyPress 0xA) (setStatus (.waitKey 3) (setPc 0x210 State.reset))
    (fun t => reg 3 t == 0x0A && t.pc == 0x212 && decide (t.status = .running)) = true := by decide
/-- K5. -/
theorem test_timerTick : eventGives .timerTick (setSt 2 State.reset) (fun t => t.st == 1 && t.dt == 0 && soundActive t) = true := by
  decide
/-- R2. -/
theorem test_load : eventGives (.load [0x12, 0x34]) State.reset
    (fun t => readByte t.mem 0x200 == 0x12 && readByte t.mem 0x201 == 0x34 && t.loaded) = true := by decide
/-- R244. -/
theorem test_launch : (launch [0x12, 0x00]).loaded = true ∧ readByte (launch [0x12, 0x00]).mem 0x200 = 0x12 := by decide
/-- R9: a tick in `FAULTED`; and R8, RESET. -/
theorem test_faulted_events : (eventGives .timerTick (setDt 3 (raiseError .unimplemented none none State.reset))
      (fun t => t.dt == 2 && recordIs t .unimplemented none 0x200 none)
    && eventGives .reset (setDt 3 (raiseError .unimplemented none none State.reset))
      (fun t => t.dt == 0 && decide (t.status = .running))) = true := by decide
/-- R210: the spec's numbers. -/
theorem test_cause_codes : Cause.invalidRegister.code = 1 ∧ Cause.outOfBounds.code = 2 ∧ Cause.unimplemented.code = 7 ∧
    Cause.readOutOfRange.code = 9 := by decide

/-! ### Witnesses: for each statement with hypotheses, a state and operands that meet them all, clause by clause -/

/-- A `FAULTED` state that a step reached. -/
def faulted : State := raiseError .unimplemented (some 0xE19E) none { at200 0xE19E with started := true }

/-- A waiting state that a step reached. -/
def waiting : State := setStatus (.waitKey 3) { at200 0xF30A with started := true }

/-- The record of `faulted`. -/
def faultedRecord : ErrorRecord := { cause := .unimplemented, word := some 0xE19E, pc := 0x200, addr := none }

theorem test_wit_DecodeUndoesEncode : (Instr.drw 0xF 0xF 0xF).wellFormed = true := by decide
theorem test_wit_EncodeUndoesDecode : decodeWord 0x5FFF#16 = .ok (.seReg 0xF 0xF 0xF) := by decide
theorem test_wit_EveryWordDecodesToExactlyOneThing :
    MalformedBySpec 0x0FFF#16 ∧ MalformedBySpec 0x8FFF#16 ∧ MalformedBySpec 0xFFFF#16 ∧ ¬ MalformedBySpec 0xEFFF#16 ∧
      ¬ MalformedBySpec 0x1000#16 := by unfold MalformedBySpec; decide
theorem test_wit_StepRunsTheDecodedInstruction :
    (at200 0x6A42).status = .running ∧ (at200 0x6A42).pc.toNat + 1 < Config.memSize ∧
      decodeWord (wordOfBytes (readByte (at200 0x6A42).mem (at200 0x6A42).pc.toNat)
        (readByte (at200 0x6A42).mem ((at200 0x6A42).pc.toNat + 1))) = .ok (.ldImm 0xA 0x42) ∧
      (Instr.ldImm 0xA 0x42).wellFormed = true ∧ (at200 0x6A42).host = [] ∧
      ({ at200 0x6A42 with host := [.step 1, .timerTick] } : State).host = .step 1 :: [.timerTick] := by decide
theorem test_wit_FetchIsBigEndianAndGuarded :
    Config.memSize ≤ 0x1000 ∧ Config.memSize = 0xFFF + 1 ∧ 0xFFE + 1 < Config.memSize := by decide
theorem test_wit_FetchAndDecodeErrorsAreTaken :
    ((setPc 0xFFF State.reset).status = .running ∧ (setPc 0xFFF State.reset).host = [] ∧
        fetchWord (setPc 0xFFF State.reset).mem (setPc 0xFFF State.reset).pc.toNat = .error 0x1000) ∧
      (State.reset.status = .running ∧ ({ State.reset with host := [.step 7, .timerTick] } : State).host = .step 7 :: [.timerTick] ∧
        fetchWord State.reset.mem State.reset.pc.toNat = .ok 0x0000#16) ∧
      MalformedBySpec 0x0000#16 := by unfold MalformedBySpec; decide
theorem test_wit_FaultedIsLeftOnlyByReset :
    faulted.status = .faulted faultedRecord ∧
      ∃ t, HostEvent.timerTick ≠ .reset ∧ applyEvent .timerTick faulted = .next t := ⟨by decide, _, by decide, rfl⟩
theorem test_wit_ErrorsKeepPcAndNameTheirInstruction :
    ∃ t rec, (at200 0xE19E).status = .running ∧ exec (.classE 0x19E) (at200 0xE19E) = .next t ∧ t.status = .faulted rec :=
  ⟨_, _, by decide, rfl, rfl⟩
theorem test_wit_EachCauseHasItsInstructions :
    (∃ t rec, (setI 0x1FF (at200 0xF133)).status = .running ∧ exec (.ldB 1) (setI 0x1FF (at200 0xF133)) = .next t ∧
        t.status = .faulted rec ∧ rec.cause = .outOfBounds) ∧
      (∃ t rec, (setI 0xFFF (at200 0xF165)).status = .running ∧ exec (.ldRegsMem 1) (setI 0xFFF (at200 0xF165)) = .next t ∧
        t.status = .faulted rec ∧ rec.cause = .readOutOfRange) ∧
      (∃ t rec, ({ at200 0x2400 with sp := 16 } : State).status = .running ∧
        exec (.call 0x400) { at200 0x2400 with sp := 16 } = .next t ∧ t.status = .faulted rec ∧ rec.cause = .stackOverflow) ∧
      (∃ t rec, (at200 0x00EE).status = .running ∧ exec .ret (at200 0x00EE) = .next t ∧ t.status = .faulted rec ∧
        rec.cause = .stackUnderflow) ∧
      ∃ t rec, (at200 0xE000).status = .running ∧ exec (.classE 0) (at200 0xE000) = .next t ∧ t.status = .faulted rec ∧
        rec.cause = .unimplemented :=
  ⟨⟨_, _, by decide, rfl, rfl, rfl⟩, ⟨_, _, by decide, rfl, rfl, rfl⟩, ⟨_, _, by decide, rfl, rfl, rfl⟩,
    ⟨_, _, by decide, rfl, rfl, rfl⟩, _, _, by decide, rfl, rfl, rfl⟩
theorem test_wit_InstructionsAndUnscheduledStepsAnswer : State.reset.host = [] := by decide
theorem test_wit_BlitIsClippedPixelwiseXor : 63 < Config.dispW ∧ 31 < Config.dispH := by decide
/-- Both bounds of the block read, and a covered pixel that was set, at the last column and row. -/
theorem test_wit_DrwDrawsOrFaults :
    (0#4).toNat = 0 ∧ (setI 0xFFD State.reset).i.toNat + (3#4).toNat ≤ Config.memSize ∧
      (0 < (3#4).toNat ∧ Config.memSize < (setI 0xFFE State.reset).i.toNat + (3#4).toNat) ∧
      pix (setPix clearGrid 63 31 true) 63 31 = true ∧ pix clearGrid 63 31 = false := by decide
theorem test_wit_RetPopsOrFaults :
    (0 < ({ State.reset with sp := 1 } : State).sp.val ∧ ({ State.reset with sp := 1 } : State).sp.val - 1 < Config.stackDepth) ∧
      (0 < ({ State.reset with sp := 16 } : State).sp.val ∧
        ({ State.reset with sp := 16 } : State).sp.val - 1 < Config.stackDepth) ∧ State.reset.sp.val = 0 := by decide
theorem test_wit_CallPushesOrFaults :
    State.reset.sp.val < Config.stackDepth ∧ ({ State.reset with sp := 15 } : State).sp.val < Config.stackDepth ∧
      ({ State.reset with sp := 16 } : State).sp.val = Config.stackDepth := by decide
theorem test_wit_RetReturnsPastItsCall : ({ State.reset with sp := 15 } : State).sp.val < Config.stackDepth := by decide
theorem test_wit_SkipsOnImmediate : reg 1 (setReg 1 0x10 State.reset) = 0x10 ∧ reg 1 (setReg 1 0x10 State.reset) ≠ 0x11 := by
  decide
theorem test_wit_SkipsOnRegisters :
    reg 4 State.reset = reg 4 State.reset ∧ reg 1 (setReg 1 7 State.reset) ≠ reg 2 (setReg 1 7 State.reset) := by decide
theorem test_wit_AddRegGivesSumAndCarry : (1#4) ≠ 0xF#4 := by decide
theorem test_wit_SubWritesFlagThenDifference :
    (1 : Byte) = (if (reg 0xF (setReg 1 5 (setReg 0xF 3 State.reset))).toNat < (reg 1 (setReg 1 5 (setReg 0xF 3 State.reset))).toNat
      then 1 else 0) ∧ (1#4) ≠ 0xF#4 := by decide
theorem test_wit_ShrWritesLowBitThenHalves : (1#4) ≠ 0xF#4 ∧ (15#4) = 0xF#4 := by decide
theorem test_wit_SubnWritesFlagThenDifference :
    (1 : Byte) = (if (reg 1 (setReg 1 3 (setReg 0xF 5 State.reset))).toNat < (reg 0xF (setReg 1 3 (setReg 0xF 5 State.reset))).toNat
      then 1 else 0) ∧ (1#4) ≠ 0xF#4 := by decide
theorem test_wit_ShlWritesHighBitThenDoubles : (1#4) ≠ 0xF#4 ∧ (15#4) = 0xF#4 := by decide
theorem test_wit_RndMasksTheDrawnByte :
    ({ State.reset with draw := some 0xAB } : State).draw = some 0xAB ∧
      ∃ r, State.reset.draw = none ∧ r = Config.randomByte State.reset.draws := ⟨by decide, _, by decide, rfl⟩
/-- The bounds of the three outcomes: 0x200 and 0xFFD whole, 0x1FF refused, 0xFFE and 0x1000 off the end. -/
theorem test_wit_LdBStoresDigitsOrFaults :
    (setI 0x200 State.reset).mem.wf = true ∧
      (effectiveAddress (setI 0x200 State.reset) 0 = 0x200 ∧ Config.progBase ≤ 0x200 ∧ 0x200 + 3 ≤ Config.memSize) ∧
      (effectiveAddress (setI 0xFFD State.reset) 0 = 0xFFD ∧ Config.progBase ≤ 0xFFD ∧ 0xFFD + 3 ≤ Config.memSize) ∧
      (effectiveAddress (setI 0x1FF State.reset) 0 = 0x1FF ∧ 0x1FF < Config.progBase) ∧
      (effectiveAddress (setI 0xFFE State.reset) 0 = 0xFFE ∧ Config.memSize < 0xFFE + 3 ∧ 0xFFE + 1 < Config.memSize) ∧
      effectiveAddress (setI 0x1000 State.reset) 0 = 0x1000 ∧ Config.memSize < 0x1000 + 3 := by decide
theorem test_wit_LdMemRegsStoresOrFaults :
    (setI 0x200 State.reset).mem.wf = true ∧
      (effectiveAddress (setI 0x200 State.reset) 0 = 0x200 ∧ Config.progBase ≤ 0x200 ∧ 0x200 + (15#4).toNat + 1 ≤ Config.memSize) ∧
      (effectiveAddress (setI 0xFF0 State.reset) 0 = 0xFF0 ∧ 0xFF0 + (15#4).toNat + 1 ≤ Config.memSize) ∧
      (effectiveAddress (setI 0x1FF State.reset) 0 = 0x1FF ∧ 0x1FF < Config.progBase) ∧
      (effectiveAddress (setI 0xFF1 State.reset) 0 = 0xFF1 ∧ Config.memSize < 0xFF1 + (15#4).toNat + 1 ∧
        0xFF1 + (14#4).toNat < Config.memSize) ∧
      effectiveAddress (setI 0x1000 State.reset) 0 = 0x1000 ∧ Config.memSize < 0x1000 + (0#4).toNat + 1 := by decide
theorem test_wit_LdRegsMemLoadsOrFaults :
    (setI 0xFF0 State.reset).i.toNat + (15#4).toNat < Config.memSize ∧
      Config.memSize ≤ (setI 0xFF1 State.reset).i.toNat + (15#4).toNat ∧ (15#4).toNat ≤ (15#4).toNat ∧
      (0#4).toNat < (1#4).toNat := by decide
theorem test_wit_KeyPressCompletesTheWait : waiting.status = .waitKey 3 ∧ ∀ x, State.reset.status ≠ .waitKey x :=
  ⟨by decide, fun _ h => by cases h⟩
theorem test_wit_WaitIsLeftOnlyByKeyOrReset :
    waiting.status = .waitKey 3 ∧ waiting.started = true ∧ HostEvent.readDirty ≠ .reset ∧
      (∀ key, HostEvent.readDirty ≠ .keyPress key) ∧ applyEvent .readDirty waiting = .next waiting ∧
      HostEvent.readDirty ≠ .timerTick ∧ HostEvent.readDirty ≠ .dirtyClear :=
  ⟨by decide, by decide, by decide, (fun _ h => by cases h), rfl, by decide, by decide⟩
theorem test_wit_LoadCopiesInFullOrFails :
    State.reset.mem.wf = true ∧ State.reset.loaded = false ∧ State.reset.started = false ∧
      (List.replicate 3584 (0 : Byte)).length ≤ 3584 ∧ 3584 < (List.replicate 3585 (0 : Byte)).length :=
  ⟨by decide, by decide, by decide, by rw [List.length_replicate], by rw [List.length_replicate]; decide⟩
theorem test_wit_OnlyEventsNotEnabledStop :
    (waiting.status = .waitKey 3 ∧ waiting.host = []) ∧ (faulted.status = .faulted faultedRecord ∧ faulted.host = []) ∧
      ((launch [0x12]).loaded = true ∧ (launch [0x12]).started = false) ∧ (faulted.loaded = false ∧ faulted.started = true) ∧
      (∀ t, applyEvent (.step 7) waiting ≠ .next t) ∧ ∀ t, applyEvent (.load []) faulted ≠ .next t :=
  ⟨by decide, by decide, by decide, by decide, (fun _ h => by cases h), fun _ h => by cases h⟩
/-- A STEP that goes on, one that ends in an error, and one in `FAULTED`. -/
theorem test_wit_ReadsAnswerAndChangeNothing :
    ((at200 0x6A42).status = .running ∧
        ∃ t, applyEvent (.step 7) (at200 0x6A42) = .next t ∧ ∀ rec, t.status ≠ .faulted rec) ∧
      ((at200 0xE19E).status = .running ∧
        ∃ t, applyEvent (.step 7) (at200 0xE19E) = .next t ∧ t.status = .faulted faultedRecord) ∧
      faulted.status = .faulted faultedRecord :=
  ⟨⟨by decide, _, rfl, fun _ h => by cases h⟩, ⟨by decide, _, rfl, rfl⟩, by decide⟩
/-- R220: the reply of a STEP is ok, or the error record. -/
theorem test_step_replies :
    eventReply (.step 7) (at200 0x6A42) = .ok ∧ eventReply (.step 7) (at200 0xE19E) = .error faultedRecord := by decide
theorem test_wit_HostEventsComeOldestFirst :
    ({ State.reset with host := [.timerTick, .step 7] } : State).host = .timerTick :: [.step 7] := by decide
/-- A step of a state that meets the invariants of a run: the program `JP 0x200`. -/
theorem test_wit_step_invariants :
    MemoryCanonical (at200 0x1200) ∧ ReservedIntact (at200 0x1200) ∧ PcBounded (at200 0x1200) ∧ RecordNamesPc (at200 0x1200) ∧
      StartedOnceStopped (at200 0x1200) ∧ ∃ t, step (at200 0x1200) = .next t := by
  refine ⟨by unfold MemoryCanonical; decide, ?_, ⟨by decide, ?_, fun _ h => by cases h⟩, fun _ h => (by cases h),
    fun h => absurd rfl h, _, rfl⟩
  · intro a below
    have listed : (at200 0x1200).mem = putBytes 0x200 [0x12, 0x00] [] := by decide
    rw [listed, readByte_putBytes (by decide) _ _ (by decide), if_neg]
    · rfl
    · change a < 0x200 at below
      omega
  · decide
theorem test_wit_OnlyTheStoresChangeMemory :
    (setReg 0 0xAA (setI 0x300 (at200 0xF055))).mem.wf = true ∧
      ∃ t, exec (.ldMemRegs 0) (setReg 0 0xAA (setI 0x300 (at200 0xF055))) = .next t ∧
        readByte t.mem 0x300 ≠ readByte (setReg 0 0xAA (setI 0x300 (at200 0xF055))).mem 0x300 :=
  ⟨by decide, _, rfl, by decide⟩
theorem test_wit_EachUnitHasItsWriters :
    (∃ t, exec (.call 0x300) (at200 0x2300) = .next t ∧ ¬ SameStack (at200 0x2300) t) ∧
      (∃ t, exec (.classE 0x19E) (at200 0xE19E) = .next t ∧ t.status ≠ (at200 0xE19E).status) ∧
      (∃ t, exec (.ldI 0x123) (at200 0xA123) = .next t ∧ t.i ≠ (at200 0xA123).i) ∧
      (∃ t, exec (.ldDt 1) (setReg 1 5 (at200 0xF115)) = .next t ∧ t.dt ≠ (setReg 1 5 (at200 0xF115)).dt) ∧
      (∃ t, exec (.ldSt 1) (setReg 1 5 (at200 0xF118)) = .next t ∧ t.st ≠ (setReg 1 5 (at200 0xF118)).st) ∧
      (∃ t, exec (.drw 0 0 0) (at200 0xD000) = .next t ∧ ¬ SameScreen (at200 0xD000) t) ∧
      ∃ t, exec (.ldVxK 3) (at200 0xF30A) = .next t ∧ t.status = .waitKey 3 :=
  ⟨⟨_, rfl, fun h => absurd h.2 (by decide)⟩, ⟨_, rfl, by decide⟩, ⟨_, rfl, by decide⟩, ⟨_, rfl, by decide⟩,
    ⟨_, rfl, by decide⟩, ⟨_, rfl, fun h => absurd h.2 (by decide)⟩, _, rfl, rfl⟩
theorem test_wit_OnlySixInstructionsWriteTheFlag :
    ∃ t, exec (.addReg 1 1) (setReg 1 0x80 (at200 0x8114)) = .next t ∧ reg 0xF t ≠ reg 0xF (setReg 1 0x80 (at200 0x8114)) :=
  ⟨_, rfl, by decide⟩
theorem test_wit_RandomByteReachesOnlyRnd : ∀ x kk, Instr.ldRegsMem 0xF ≠ .rnd x kk := fun _ _ h => by cases h
theorem test_wit_IdleStaysIdle :
    Idle { at200 0x1200 with started := true } ∧ ({ at200 0x1200 with started := true } : State).started = true ∧
      ({ at200 0x1200 with started := true } : State).draw = none ∧ ({ at200 0x1200 with started := true } : State).host = [] := by
  unfold Idle; decide
/-- The bounds of both stores; `x` at 0; `I` at the next instruction, and one byte past it. -/
theorem test_wit_StoreIsSeenByTheNextFetch :
    (setI 0x202 (at200 0xF155)).mem.wf = true ∧ Config.progBase ≤ (setI 0x202 (at200 0xF155)).i.toNat ∧
      ((setI 0x202 (at200 0xF155)).i.toNat + (1#4).toNat < Config.memSize ∧ 1 ≤ (1#4).toNat ∧
        (setI 0x202 (at200 0xF155)).i = (setI 0x202 (at200 0xF155)).pc + 2) ∧
      (Config.progBase ≤ (setI 0x200 (at200 0xF055)).i.toNat ∧ (setI 0xFFF (at200 0xF055)).i.toNat + (0#4).toNat < Config.memSize) ∧
      ((setI 0xFFD (at200 0xF133)).i.toNat + 2 < Config.memSize ∧ 0xFFE + 1 < Config.memSize ∧ 0xFFE + 1 = 0xFFF) ∧
      (setI 0x202 (at200 0xF133)).i.toNat + 2 < Config.memSize ∧
      (setI 0x202 (at200 0xF133)).i = (setI 0x202 (at200 0xF133)).pc + 2 := by decide

end Sys2Proof.Tests
end

section
/-! PROOFS for the family 00_scope: all that one instruction can do to the status, and what follows of an instruction that
raises. -/

namespace Sys2Proof.Machine

/-- The causes 60_exceptions R210 lists as an instruction's own, each with the instructions that raise it and whether its
record has an address (R211). -/
inductive CanRaise : Instr → Cause → Option Nat → Prop where
  | ret : CanRaise .ret .stackUnderflow none
  | call (nnn : Addr) : CanRaise (.call nnn) .stackOverflow none
  | drw (x y n : Nibble) (bad : Nat) : CanRaise (.drw x y n) .readOutOfRange (some bad)
  | classE (nnn : Addr) : CanRaise (.classE nnn) .unimplemented none
  | ldB (x : Nibble) (bad : Nat) : CanRaise (.ldB x) .outOfBounds (some bad)
  | ldMemRegs (x : Nibble) (bad : Nat) : CanRaise (.ldMemRegs x) .outOfBounds (some bad)
  | ldRegsMem (x : Nibble) (bad : Nat) : CanRaise (.ldRegsMem x) .readOutOfRange (some bad)

/-- The instruction `i` ends in an error: its record stands in the status, and at most memory has changed beside it
(60_exceptions R212). -/
def Raises (i : Instr) (s t : State) : Prop :=
  ∃ cause addr m, CanRaise i cause addr ∧ t = raiseError cause (some (encode i)) addr (setMem m s)

/-- An error raised before any byte was stored leaves memory too. -/
theorem Raises.of_trap {i : Instr} {s t : State} {cause : Cause} {addr : Option Nat} (can : CanRaise i cause addr)
    (h : trap cause i addr s = .next t) : Raises i s t :=
  ⟨cause, addr, s.mem, can, (Host.Outcome.next.inj h).symm⟩

/-- A store keeps the status or ends in `OutOfBounds`. -/
theorem storeThrough_status {i : Instr} {ws : List Byte} {s t : State} (can : ∀ bad, CanRaise i .outOfBounds (some bad))
    (h : storeThrough i ws s = .next t) : t.status = s.status ∨ Raises i s t := by
  rcases storeThrough_cases i ws s with ⟨m, -, e⟩ | ⟨m, bad, -, e⟩ <;> rw [e] at h <;> injection h with h
  · exact .inl (by rw [← h]; rfl)
  · exact .inr ⟨_, _, m, can bad, h.symm⟩

/-- All that an instruction can do to the status: keep it, suspend (44_timers_keyboard R193), or raise. -/
theorem exec_status {i : Instr} {s t : State} (h : exec i s = .next t) :
    t.status = s.status ∨ (∃ x, i = .ldVxK x ∧ t = setStatus (.waitKey x) s) ∨ Raises i s t := by
  cases i
  case ldVxK x => exact .inr (.inl ⟨x, rfl, (Host.Outcome.next.inj h).symm⟩)
  case classE nnn => exact .inr (.inr (.of_trap (.classE nnn) h))
  case ldB x => exact (storeThrough_status (.ldB x) h).imp_right .inr
  case ldMemRegs x => exact (storeThrough_status (.ldMemRegs x) h).imp_right .inr
  case ret =>
    simp only [exec, execRet] at h
    rcases pop_cases s with ⟨-, e⟩ | ⟨-, _, e⟩ <;> rw [e] at h
    · exact .inr (.inr (.of_trap .ret h))
    · injection h with h
      exact .inl (by rw [← h]; rfl)
  case call nnn =>
    simp only [exec, execCall] at h
    rcases push_cases (returnAddress s.pc) s with ⟨-, e⟩ | ⟨_, e⟩ <;> rw [e] at h
    · exact .inr (.inr (.of_trap (.call nnn) h))
    · injection h with h
      exact .inl (by rw [← h]; rfl)
  case drw x y n =>
    simp only [exec, execDrw] at h
    split at h
    · exact .inr (.inr (.of_trap (.drw x y n _) h))
    · injection h with h
      exact .inl (by rw [← h]; rfl)
  case ldRegsMem x =>
    simp only [exec, execLdRegsMem] at h
    split at h
    · exact .inr (.inr (.of_trap (.ldRegsMem x _) h))
    · injection h with h
      exact .inl (by rw [← h, setRegsFrom_eq]; rfl)
  -- the other instructions complete from every state and write no status
  all_goals
    injection h with h
    exact .inl (by rw [← h]; rfl)

/-- An instruction that leaves `RUNNING` for `FAULTED` has raised. -/
theorem raises_of_faulted {i : Instr} {s t : State} {rec : ErrorRecord} (running : s.status = .running)
    (h : exec i s = .next t) (faulted : t.status = .faulted rec) : Raises i s t := by
  rcases exec_status h with same | ⟨x, -, rfl⟩ | raised
  · rw [same, running] at faulted
    cases faulted
  · cases faulted
  · exact raised

/-- Settles O9: an instruction that raises is `raiseError` over a change of memory alone, so that the record and every other
field can be read off. -/
theorem errorsKeepPcAndNameTheirInstruction : Obligations.ErrorsKeepPcAndNameTheirInstruction := by
  intro i s t rec running h faulted
  obtain ⟨cause, addr, m, -, rfl⟩ := raises_of_faulted running h faulted
  obtain rfl := Status.faulted.inj faulted
  exact ⟨rfl, rfl, rfl, fun _ => rfl, rfl, ⟨rfl, rfl⟩, ⟨rfl, rfl⟩, ⟨rfl, rfl⟩, rfl, rfl, rfl, rfl, rfl⟩

end Sys2Proof.Machine
end

section
/-! PROOFS for the family 10_state: all that one instruction can leave of a state, said once (`exec_effect`), and what a step keeps
once its parts keep it (`step_keeps`); the invariants and the whole-machine rules are read off these two. -/

namespace Sys2Proof.Machine

/-! ### What one instruction does -/

/-- The instruction writes one register, `x`, and no flag (42_alu R142 to R147, 44_timers_keyboard R190); CXKK, which also counts a
draw, and FX65 stand apart. -/
def NamesDestination (i : Instr) (x : Nibble) : Prop :=
  (∃ kk, i = .ldImm x kk ∨ i = .addImm x kk) ∨
    (∃ y, i = .ldReg x y ∨ i = .orReg x y ∨ i = .andReg x y ∨ i = .xorReg x y) ∨ i = .ldVxDt x

/-- The instruction writes `VF` as its flag, then a register (42_alu R148 to R152). -/
def WritesFlag (i : Instr) : Prop := ∃ x y, i = .addReg x y ∨ i = .sub x y ∨ i = .shr x y ∨ i = .subn x y ∨ i = .shl x y

/-- The instruction is a skip (41_control R123 to R126). -/
def Skips (i : Instr) : Prop :=
  (∃ x kk, i = .seImm x kk ∨ i = .sneImm x kk) ∨ ∃ x y n, i = .seReg x y n ∨ i = .sneReg x y n

/-- The instruction sets `I` (10_state R23). -/
def SetsIndex (i : Instr) : Prop := (∃ nnn, i = .ldI nnn) ∨ ∃ x, i = .addI x ∨ i = .ldF x

/-- The instruction stores the bytes `ws`, at most 16, at `I` upward (43_index_memory R173, R174). -/
def Stores (i : Instr) (ws : List Byte) : Prop := (∃ x, i = .ldB x ∨ i = .ldMemRegs x) ∧ ws.length ≤ 16

/-- The memory after guarded stores of `ws` at `I` upward. -/
def storedMem (ws : List Byte) (s : State) : Memory := (storeBytes s.i.toNat ws s.mem).1

/-- What an instruction leaves of the state `s`: one constructor per kind of change, with the instructions that make it. The values
written are left free except where a rule of this family reads them. -/
inductive Effect (s : State) : Instr → State → Prop where
  | destination {i : Instr} {x : Nibble} (w : Byte) (names : NamesDestination i x) : Effect s i (advance (setReg x w s))
  | rnd (x : Nibble) (kk w : Byte) : Effect s (.rnd x kk) (advance (setReg x w (countDraw s)))
  | flag {i : Instr} (x : Nibble) (f w : Byte) (writes : WritesFlag i) : Effect s i (advance (setReg x w (setReg vf f s)))
  | skip {i : Instr} (c : Bool) (skips : Skips i) : Effect s i (skipIf c s)
  | jp (nnn : Addr) : Effect s (.jp nnn) (setPc (zextAddr nnn) s)
  | jpV0 (nnn : Addr) (w : Byte) : Effect s (.jpV0 nnn) (setPc (jumpV0Target nnn w) s)
  | call (nnn : Addr) {k : Nat} (hk : k < Config.stackDepth) (sp : Fin (Config.stackDepth + 1)) :
      Effect s (.call nnn) (setPc (zextAddr nnn) { s with stack := s.stack.set k (returnAddress s.pc) hk, sp := sp })
  | ret {k : Nat} (hk : k < Config.stackDepth) (sp : Fin (Config.stackDepth + 1)) :
      Effect s .ret (setPc (s.stack[k]'hk) { s with sp := sp })
  | index {i : Instr} (w : Word) (sets : SetsIndex i) : Effect s i (advance (setI w s))
  | ldDt (x : Nibble) (w : Byte) : Effect s (.ldDt x) (advance (setDt w s))
  | ldSt (x : Nibble) (w : Byte) : Effect s (.ldSt x) (advance (setSt w s))
  | cls (g : Grid) (d : Bool) : Effect s .cls (advance (setScreen g d s))
  | drw (x y n : Nibble) (f : Byte) (g : Grid) (d : Bool) :
      Effect s (.drw x y n) (advance (setReg vf f (setScreen g d s)))
  | ldRegsMem (x : Nibble) (v : Vector Byte Config.numRegs)
      (above : ∀ r : Nibble, x.toNat < r.toNat → reg r { s with v := v } = reg r s) :
      Effect s (.ldRegsMem x) (advance { s with v := v })
  | store {i : Instr} {ws : List Byte} (stores : Stores i ws) : Effect s i (advance (setMem (storedMem ws s) s))
  | suspend (x : Nibble) : Effect s (.ldVxK x) (setStatus (.waitKey x) s)
  | error {i : Instr} {cause : Cause} {addr : Option Nat} (can : CanRaise i cause addr) :
      Effect s i (raiseError cause (some (encode i)) addr s)
  | refusedStore {i : Instr} {ws : List Byte} {cause : Cause} {addr : Option Nat} (can : CanRaise i cause addr)
      (stores : Stores i ws) : Effect s i (raiseError cause (some (encode i)) addr (setMem (storedMem ws s) s))

theorem Effect.of_next {i : Instr} {s t u : State} (e : Effect s i u) (h : (.next u : Result) = .next t) : Effect s i t :=
  Host.Outcome.next.inj h ▸ e

/-- The two ends of a store. -/
theorem storeThrough_effect {i : Instr} {ws : List Byte} {s t : State} (stores : Stores i ws)
    (can : ∀ bad, CanRaise i .outOfBounds (some bad)) (h : storeThrough i ws s = .next t) : Effect s i t := by
  rcases storeThrough_cases i ws s with ⟨m, hm, e⟩ | ⟨m, bad, hm, e⟩ <;> rw [e] at h <;>
    obtain rfl : storedMem ws s = m := congrArg Prod.fst hm
  · exact (Effect.store stores).of_next h
  · exact (Effect.refusedStore (can bad) stores).of_next h

/-- FX65 writes no register above `Vx` (43_index_memory R175). -/
theorem reg_setRegsFrom_above {x r : Nibble} {ws : List Byte} (s : State) (len : ws.length = blockLength x)
    (above : x.toNat < r.toNat) : reg r (setRegsFrom 0 ws s) = reg r s := by
  have hx := x.isLt
  unfold blockLength at len
  rw [reg_setRegsFrom 0 ws s (by simp only [Config.numRegs]; omega), if_pos (Nat.zero_le _),
    List.getD_eq_default _ _ (by omega)]

theorem execRet_effect {s t : State} (h : execRet s = .next t) : Effect s .ret t := by
  unfold execRet at h
  rcases pop_cases s with ⟨-, e⟩ | ⟨-, top, e⟩ <;> rw [e] at h
  · exact (Effect.error .ret).of_next h
  · exact (Effect.ret top _).of_next h

theorem execCall_effect {nnn : Addr} {s t : State} (h : execCall nnn s = .next t) : Effect s (.call nnn) t := by
  unfold execCall at h
  rcases push_cases (returnAddress s.pc) s with ⟨-, e⟩ | ⟨room, e⟩ <;> rw [e] at h
  · exact (Effect.error (.call nnn)).of_next h
  · exact (Effect.call nnn room _).of_next h

theorem execDrw_effect {x y n : Nibble} {s t : State} (h : execDrw x y n s = .next t) : Effect s (.drw x y n) t := by
  unfold execDrw at h
  split at h
  · exact (Effect.error (.drw x y n _)).of_next h
  · exact (Effect.drw x y n _ _ _).of_next h

theorem execLdRegsMem_effect {x : Nibble} {s t : State} (h : execLdRegsMem x s = .next t) : Effect s (.ldRegsMem x) t := by
  unfold execLdRegsMem at h
  rcases readBlock_cases s.mem (effectiveAddress s 0) (blockLength x) with ⟨-, e⟩ | ⟨-, -, e⟩ <;> rw [e] at h
  · obtain rfl := Host.Outcome.next.inj h
    rw [setRegsFrom_eq]
    exact .ldRegsMem x _ fun r above => reg_setRegsFrom_above s (by simp) above
  · exact (Effect.error (.ldRegsMem x _)).of_next h

/-- All that an instruction can do where it answers a next state. -/
theorem exec_effect {i : Instr} {s t : State} (h : exec i s = .next t) : Effect s i t := by
  cases i with
  | ret => exact execRet_effect h
  | call nnn => exact execCall_effect h
  | drw x y n => exact execDrw_effect h
  | ldRegsMem x => exact execLdRegsMem_effect h
  | ldB x => exact storeThrough_effect ⟨⟨x, .inl rfl⟩, by simp [bcdDigits]⟩ (.ldB x) h
  | ldMemRegs x => exact storeThrough_effect ⟨⟨x, .inr rfl⟩, by have := x.isLt; simp; omega⟩ (.ldMemRegs x) h
  -- the other instructions end in one way, whatever the state
  | cls => exact (Effect.cls _ _).of_next h
  | jp nnn => exact (Effect.jp nnn).of_next h
  | jpV0 nnn => exact (Effect.jpV0 nnn _).of_next h
  | rnd x kk => exact (Effect.rnd x kk _).of_next h
  | classE nnn => exact (Effect.error (.classE nnn)).of_next h
  | ldVxK x => exact (Effect.suspend x).of_next h
  | ldDt x => exact (Effect.ldDt x _).of_next h
  | ldSt x => exact (Effect.ldSt x _).of_next h
  | ldI _ | addI _ | ldF _ => exact (Effect.index _ (by simp [SetsIndex])).of_next h
  | seImm _ _ | sneImm _ _ | seReg _ _ _ | sneReg _ _ _ => exact (Effect.skip _ (by simp [Skips])).of_next h
  | addReg x _ | sub x _ | shr x _ | subn x _ | shl x _ => exact (Effect.flag x _ _ (by simp [WritesFlag])).of_next h
  | ldImm _ _ | addImm _ _ | ldReg _ _ | orReg _ _ | andReg _ _ | xorReg _ _ | ldVxDt _ =>
    exact (Effect.destination _ (by simp [NamesDestination])).of_next h

/-! ### What one instruction leaves unchanged, unit by unit -/

theorem Effect.stack {i : Instr} {s t : State} (e : Effect s i t) : SameStack s t ∨ i = .ret ∨ ∃ nnn, i = .call nnn := by
  cases e
  case ret => exact .inr (.inl rfl)
  case call nnn _ _ _ => exact .inr (.inr ⟨nnn, rfl⟩)
  all_goals exact .inl ⟨rfl, rfl⟩

theorem Effect.i {i : Instr} {s t : State} (e : Effect s i t) : t.i = s.i ∨ SetsIndex i := by
  cases e
  case index _ sets => exact .inr sets
  all_goals exact .inl rfl

theorem Effect.dt {i : Instr} {s t : State} (e : Effect s i t) : t.dt = s.dt ∨ ∃ x, i = .ldDt x := by
  cases e
  case ldDt x _ => exact .inr ⟨x, rfl⟩
  all_goals exact .inl rfl

theorem Effect.st {i : Instr} {s t : State} (e : Effect s i t) : t.st = s.st ∨ ∃ x, i = .ldSt x := by
  cases e
  case ldSt x _ => exact .inr ⟨x, rfl⟩
  all_goals exact .inl rfl

theorem Effect.screen {i : Instr} {s t : State} (e : Effect s i t) :
    SameScreen s t ∨ i = .cls ∨ ∃ x y n, i = .drw x y n := by
  cases e
  case cls => exact .inr (.inl rfl)
  case drw x y n _ _ _ => exact .inr (.inr ⟨x, y, n, rfl⟩)
  all_goals exact .inl ⟨rfl, rfl⟩

theorem Effect.mem {i : Instr} {s t : State} (e : Effect s i t) :
    t.mem = s.mem ∨ ∃ ws, Stores i ws ∧ t.mem = storedMem ws s := by
  cases e
  case store ws stores => exact .inr ⟨ws, stores, rfl⟩
  case refusedStore ws _ _ _ stores => exact .inr ⟨ws, stores, rfl⟩
  all_goals exact .inl rfl

/-- The bits `loaded` and `started` and the host's list are no instruction's to write (10_state R37). -/
theorem Effect.bookkeeping {i : Instr} {s t : State} (e : Effect s i t) :
    t.loaded = s.loaded ∧ t.started = s.started ∧ t.host = s.host := by
  cases e
  all_goals exact ⟨rfl, rfl, rfl⟩

/-- `VF` keeps its value unless it is a flag, a named destination, or FX65's last register (10_state R22). -/
theorem Effect.flag_register {i : Instr} {s t : State} (e : Effect s i t) :
    reg vf t = reg vf s ∨ WritesFlag i ∨ (∃ x y n, i = .drw x y n) ∨ NamesDestination i vf ∨ (∃ kk, i = .rnd vf kk) ∨
      i = .ldRegsMem vf := by
  cases e
  case destination x w names =>
    by_cases at_vf : vf = x
    · subst at_vf; simp [names]
    · exact .inl (by rw [reg_advance, reg_setReg_of_ne at_vf])
  case rnd x kk w =>
    by_cases at_vf : vf = x
    · subst at_vf; simp
    · exact .inl (by rw [reg_advance, reg_setReg_of_ne at_vf, reg_countDraw])
  case ldRegsMem x v above =>
    by_cases at_vf : vf = x
    · subst at_vf; simp
    · have below : x.toNat < vf.toNat := by
        have := x.isLt
        have : vf.toNat ≠ x.toNat := fun h => at_vf (BitVec.eq_of_toNat_eq h)
        rw [show vf.toNat = 15 from rfl] at *
        omega
      exact .inl (by rw [reg_advance, above vf below])
  case flag x f w writes => exact .inr (.inl writes)
  case drw x y n _ _ _ => exact .inr (.inr (.inl ⟨x, y, n, rfl⟩))
  all_goals exact .inl rfl

/-- The instructions that can raise, as 60_exceptions R210 lists them. -/
theorem CanRaise.instr {i : Instr} {cause : Cause} {addr : Option Nat} (can : CanRaise i cause addr) :
    i = .ret ∨ (∃ nnn, i = .call nnn ∨ i = .classE nnn) ∨ (∃ x y n, i = .drw x y n) ∨
      ∃ x, i = .ldB x ∨ i = .ldMemRegs x ∨ i = .ldRegsMem x := by
  cases can <;> simp

/-- A guarded store changes only bytes it covers, inside the general region (20_memory R53, R57). -/
theorem readByte_storeBytes_changed {m : Memory} (hm : m.wf = true) {a : Nat} {ws : List Byte} {b : Nat}
    (changed : readByte (storeBytes a ws m).1 b ≠ readByte m b) :
    Config.progBase ≤ b ∧ b < Config.memSize ∧ a ≤ b ∧ b < a + ws.length := by
  rcases storeBytes_fst a ws m with h | ⟨k, low, fits, h⟩
  · rw [h] at changed
    exact absurd rfl changed
  · rw [h, readByte_putBytes hm a _ fits] at changed
    by_cases covered : a ≤ b ∧ b < a + (ws.take k).length
    · have := List.length_take_le' k ws
      omega
    · rw [if_neg covered] at changed
      exact absurd rfl changed

/-! ### What a step keeps -/

/-- An event other than STEP leaves `pc`, stack, status and `started` as they are, unless it resets the block or completes the wait
for a key. -/
theorem AfterEvent.cases {s t : State} (h : AfterEvent s t) :
    (t.pc = s.pc ∧ t.stack = s.stack ∧ t.status = s.status ∧ t.started = s.started) ∨ t = resetBlock s ∨
      ∃ (key x : Nibble), s.status = .waitKey x ∧ t = setStatus .running (advance (setReg x (key.setWidth 8) s)) := by
  rcases h with rfl | rfl | ⟨image, -, rfl⟩ | ⟨key, rfl⟩ | rfl | rfl
  · exact .inl ⟨rfl, rfl, rfl, rfl⟩
  · exact .inr (.inl rfl)
  · left
    unfold loadImage
    split <;> exact ⟨rfl, rfl, rfl, rfl⟩
  · cases hs : s.status with
    | waitKey x => exact .inr (.inr ⟨key, x, rfl, by simp [keyPress, hs]⟩)
    | running => exact .inl (by simp [keyPress, hs])
    | faulted rec => exact .inl (by simp [keyPress, hs])
  · exact .inl ⟨rfl, rfl, rfl, rfl⟩
  · exact .inl ⟨rfl, rfl, rfl, rfl⟩

/-- A step keeps what every part of it keeps: serving the host's list, an event, the beginning of a STEP, an error of fetch or
decode, and an instruction fetched whole. -/
theorem step_keeps {P : State → Prop} {s t : State} (h : step s = .next t) (hs : P s)
    (served : ∀ s later, P s → P { s with host := later })
    (event : ∀ {s t}, P s → AfterEvent s t → P t)
    (begun : ∀ r s, s.status = .running → P s → P (beginStep r s))
    (raised : ∀ cause word addr {s}, s.started = true → P s → P (raiseError cause word addr s))
    (executed : ∀ {i s t}, s.status = .running → s.started = true → s.pc.toNat + 1 < Config.memSize → P s →
      exec i s = .next t → P t) : P t := by
  obtain ⟨u, ⟨later, rfl⟩, ⟨r, running, run⟩ | after⟩ := step_cases h
  · have hb := begun r _ running (served s later hs)
    rcases runInstruction_cases run with ⟨-, rfl⟩ | ⟨inside, w, -, ⟨-, rfl⟩ | ⟨i, -, ran⟩⟩
    · exact raised _ _ _ rfl hb
    · exact raised _ _ _ rfl hb
    · exact executed (s := beginStep r { s with host := later }) running rfl inside hb ran
  · exact event (served s later hs) after

/-! ### The bound on `pc` (10_state R24) -/

/-- `pc` moves past an instruction fetched whole without wrapping around (30_encoding R92). -/
theorem toNat_add_two {p : Word} (inside : p.toNat + 1 < Config.memSize) : (p + 2).toNat = p.toNat + 2 := by
  simp only [Config.memSize] at inside
  rw [BitVec.toNat_add, show (2 : Word).toNat = 2 from rfl]
  omega

/-- A skip does not wrap around either. -/
theorem toNat_add_four {p : Word} (inside : p.toNat + 1 < Config.memSize) : (p + 4).toNat = p.toNat + 4 := by
  simp only [Config.memSize] at inside
  rw [BitVec.toNat_add, show (4 : Word).toNat = 4 from rfl]
  omega

theorem zextAddr_lt (nnn : Addr) : (zextAddr nnn).toNat < 0x1000 := by
  have := nnn.isLt
  rw [zextAddr, BitVec.toNat_setWidth]
  omega

/-- The farthest target, of `JP V0` (41_control R127). -/
theorem jumpV0Target_le (nnn : Addr) (w : Byte) : (jumpV0Target nnn w).toNat ≤ 0x10FE := by
  have := nnn.isLt
  have := w.isLt
  rw [jumpV0Target, BitVec.toNat_ofNat]
  omega

/-- Where an instruction leaves `pc`. -/
theorem Effect.pc {i : Instr} {s t : State} (e : Effect s i t) :
    t.pc = s.pc ∨ t.pc = s.pc + 2 ∨ t.pc = s.pc + 4 ∨ (∃ nnn, t.pc = zextAddr nnn) ∨ (∃ nnn w, t.pc = jumpV0Target nnn w) ∨
      ∃ (k : Nat) (h : k < Config.stackDepth), t.pc = s.stack[k] := by
  cases e
  case skip c _ => cases c <;> simp
  case jp nnn => exact .inr (.inr (.inr (.inl ⟨nnn, rfl⟩)))
  case call nnn _ _ _ => exact .inr (.inr (.inr (.inl ⟨nnn, rfl⟩)))
  case jpV0 nnn w => exact .inr (.inr (.inr (.inr (.inl ⟨nnn, w, rfl⟩))))
  case ret k hk _ => exact .inr (.inr (.inr (.inr (.inr ⟨k, hk, rfl⟩))))
  case suspend => exact .inl rfl
  case error => exact .inl rfl
  case refusedStore => exact .inl rfl
  all_goals exact .inr (.inl rfl)

theorem Effect.pc_le {i : Instr} {s t : State} (e : Effect s i t) (inside : s.pc.toNat + 1 < Config.memSize)
    (entries : ∀ (k : Nat) (h : k < Config.stackDepth), s.stack[k].toNat ≤ Config.memSize) : t.pc.toNat ≤ 0x10FE := by
  have past_two := toNat_add_two inside
  have past_four := toNat_add_four inside
  simp only [Config.memSize] at inside entries
  rcases e.pc with h | h | h | ⟨nnn, h⟩ | ⟨nnn, w, h⟩ | ⟨k, hk, h⟩ <;> rw [h]
  · omega
  · omega
  · omega
  · have := zextAddr_lt nnn; omega
  · exact jumpV0Target_le nnn w
  · have := entries k hk; omega

/-- A stack entry after an instruction is an old one or the address after the instruction (10_state R26). -/
theorem Effect.entry {i : Instr} {s t : State} (e : Effect s i t) (k : Nat) (hk : k < Config.stackDepth) :
    t.stack[k] = s.stack[k] ∨ t.stack[k] = s.pc + 2 := by
  cases e
  case call nnn j hj sp =>
    by_cases at_top : j = k
    · subst at_top; exact .inr (by simp [returnAddress])
    · exact .inl (by simp [at_top])
  all_goals exact .inl rfl

/-- The bound reads `pc`, stack and status alone. -/
theorem PcBounded.of_same {s t : State} (h : PcBounded s) (pc : t.pc = s.pc) (stack : t.stack = s.stack)
    (status : t.status = s.status) : PcBounded t := by
  unfold PcBounded
  rw [pc, stack, status]
  exact h

theorem PcBounded.of_running {s : State} (running : s.status = .running) (pc : s.pc.toNat ≤ 0x10FE)
    (entries : ∀ (k : Nat) (h : k < Config.stackDepth), s.stack[k].toNat ≤ Config.memSize) : PcBounded s :=
  ⟨pc, entries, fun x wait => absurd (running.symm.trans wait) (by simp)⟩

theorem pcBounded_reset : PcBounded State.reset :=
  .of_running rfl (by decide) fun k hk => by simp [State.reset]

theorem PcBounded.event {s t : State} (h : PcBounded s) (after : AfterEvent s t) : PcBounded t := by
  have ⟨_, entries, waiting⟩ := h
  rcases after.cases with ⟨pc, stack, status, -⟩ | rfl | ⟨key, x, wait, rfl⟩
  · exact h.of_same pc stack status
  · exact pcBounded_reset.of_same rfl rfl rfl
  · have inside := waiting x wait
    have past_two := toNat_add_two inside
    exact .of_running rfl (by simp only [Config.memSize] at inside; simp; omega) entries

theorem PcBounded.exec {i : Instr} {s t : State} (h : PcBounded s) (running : s.status = .running)
    (inside : s.pc.toNat + 1 < Config.memSize) (ran : exec i s = .next t) : PcBounded t := by
  obtain ⟨-, entries, -⟩ := h
  have e := exec_effect ran
  refine ⟨e.pc_le inside entries, fun k hk => ?_, fun x wait => ?_⟩
  · rcases e.entry k hk with h | h <;> rw [h]
    · exact entries k hk
    · rw [toNat_add_two inside]; omega
  · rcases exec_status ran with same | ⟨y, -, rfl⟩ | ⟨_, _, m, -, rfl⟩
    · rw [same, running] at wait; cases wait
    · exact inside
    · cases wait

/-- Settles O52: every part of a step keeps the bound; an instruction starts from a `pc` whose two bytes lie in memory. -/
theorem stepKeepsPcBound : Obligations.StepKeepsPcBound := by
  intro s t hs h
  refine step_keeps h hs (fun s later hs => hs.of_same rfl rfl rfl) PcBounded.event (fun r s _ hs => hs.of_same rfl rfl rfl)
    (fun cause word addr s _ hs => ?_) (fun running _ inside hs ran => hs.exec running inside ran)
  obtain ⟨pc, entries, -⟩ := hs
  exact ⟨pc, entries, fun x wait => (by cases wait)⟩

/-! ### The record and `started` (10_state R34, 60_exceptions R212) -/

/-- In `RUNNING` both invariants of the status hold. -/
theorem statusInvariants_of_running {s : State} (running : s.status = .running) : RecordNamesPc s ∧ StartedOnceStopped s :=
  ⟨fun rec faulted => absurd (running.symm.trans faulted) (by simp), fun stopped => absurd running stopped⟩

/-- An error names the `pc` it was raised at. -/
theorem statusInvariants_raiseError (cause : Cause) (word : Option Word) (addr : Option Nat) {s : State}
    (started : s.started = true) :
    RecordNamesPc (raiseError cause word addr s) ∧ StartedOnceStopped (raiseError cause word addr s) :=
  ⟨fun _ faulted => Status.faulted.inj faulted ▸ rfl, fun _ => started⟩

theorem statusInvariants_event {s t : State} (h : RecordNamesPc s ∧ StartedOnceStopped s) (after : AfterEvent s t) :
    RecordNamesPc t ∧ StartedOnceStopped t := by
  rcases after.cases with ⟨pc, -, status, started⟩ | rfl | ⟨key, x, wait, rfl⟩
  · unfold RecordNamesPc StartedOnceStopped
    rw [pc, status, started]
    exact h
  · exact statusInvariants_of_running rfl
  · exact statusInvariants_of_running rfl

theorem statusInvariants_exec {i : Instr} {s t : State} (running : s.status = .running) (started : s.started = true)
    (ran : exec i s = .next t) : RecordNamesPc t ∧ StartedOnceStopped t := by
  rcases exec_status ran with same | ⟨x, -, rfl⟩ | ⟨cause, addr, m, -, rfl⟩
  · exact statusInvariants_of_running (same.trans running)
  · exact ⟨fun _ faulted => (by cases faulted), fun _ => started⟩
  · exact statusInvariants_raiseError cause _ addr started

/-- Settles O53: a STEP sets `started` before anything can stop the block, and every error is `raiseError` at the block's own
`pc`. -/
theorem stepKeepsStatusInvariants : Obligations.StepKeepsStatusInvariants := by
  intro s t hrec hstarted h
  exact step_keeps (P := fun s => RecordNamesPc s ∧ StartedOnceStopped s) h ⟨hrec, hstarted⟩ (fun _ _ hs => hs)
    statusInvariants_event (fun r s running _ => statusInvariants_of_running running)
    (fun cause word addr _ started _ => statusInvariants_raiseError cause word addr started)
    fun running started _ _ ran => statusInvariants_exec running started ran

/-- Settles O54: the list is empty, so every cell reads as its reset contents; the block runs; and the table's 80 bytes are a small
closed fact. -/
theorem resetMeetsTheInvariants : Obligations.ResetMeetsTheInvariants := by
  obtain ⟨names, started⟩ := statusInvariants_of_running (s := State.reset) rfl
  exact ⟨rfl, fun _ _ => rfl, pcBounded_reset, names, started, by decide⟩

/-! ### Whole-machine rules -/

/-- Settles O55: no kind of change but a store touches memory, and a store changes only bytes it covers. -/
theorem onlyTheStoresChangeMemory : Obligations.OnlyTheStoresChangeMemory := by
  intro i s t a hm h changed
  rcases (exec_effect h).mem with same | ⟨ws, ⟨isStore, len⟩, stored⟩
  · rw [same] at changed
    exact absurd rfl changed
  · rw [stored] at changed
    obtain ⟨low, high, above, below⟩ := readByte_storeBytes_changed hm changed
    exact ⟨isStore, low, high, above, by omega⟩

/-- Settles O56: each clause is the frame lemma of its unit. -/
theorem eachUnitHasItsWriters : Obligations.EachUnitHasItsWriters := by
  intro i s t h
  have e := exec_effect h
  refine ⟨e.stack.resolve_left, e.i.resolve_left, e.dt.resolve_left, e.st.resolve_left, e.screen.resolve_left, ?_, ?_,
    e.bookkeeping⟩
  · intro x wait
    rcases exec_status h with same | ⟨y, rfl, rfl⟩ | ⟨_, _, _, -, rfl⟩
    · exact .inl (same ▸ wait)
    · cases wait; exact .inr rfl
    · cases wait
  · intro changed
    rcases exec_status h with same | ⟨x, rfl, -⟩ | ⟨_, _, _, can, -⟩
    · exact absurd same changed
    · exact .inr (.inr (.inr ⟨x, .inl rfl⟩))
    · exact can.instr.imp_right (.imp_right (.imp_right fun ⟨x, raises⟩ => ⟨x, .inr raises⟩))

/-- Settles O57: `Effect.flag_register` in the statement's order. -/
theorem onlySixInstructionsWriteTheFlag : Obligations.OnlySixInstructionsWriteTheFlag := by
  intro i s t h changed
  rcases (exec_effect h).flag_register.resolve_left changed with
    flag | drw | (⟨kk, imm⟩ | alu | dt) | ⟨kk, rnd⟩ | load
  · exact .inl flag
  · exact .inr (.inl drw)
  · exact .inr (.inr (.inl ⟨kk, imm.imp_right .inl⟩))
  · exact .inr (.inr (.inr (.inl alu)))
  · exact .inr (.inr (.inr (.inr (.inl dt))))
  · exact .inr (.inr (.inl ⟨kk, .inr (.inr rnd)⟩))
  · exact .inr (.inr (.inr (.inr (.inr load))))

/-! ### CALL and the RET after it -/

theorem exec_call_of_room (nnn : Addr) {s : State} (room : s.sp.val < Config.stackDepth) :
    exec (.call nnn) s = .next (setPc (zextAddr nnn)
      { s with stack := s.stack.set s.sp.val (returnAddress s.pc) room, sp := ⟨s.sp.val + 1, Nat.succ_lt_succ room⟩ }) := by
  simp only [exec, execCall, push, dif_pos room]

theorem exec_ret_of_top {s : State} {k : Nat} (hk : k < Config.stackDepth) (top : s.sp.val = k + 1) :
    exec .ret s = .next (setPc (s.stack[k]'hk) { s with sp := ⟨k, Nat.lt_succ_of_lt hk⟩ }) := by
  simp only [exec, execRet, pop, top, Nat.succ_pos, dif_pos, Nat.add_sub_cancel]

/-- Settles O18: RET pops the entry that CALL pushed, at the old `SP`. -/
theorem retReturnsPastItsCall : Obligations.RetReturnsPastItsCall := by
  intro nnn s room
  refine ⟨_, _, exec_call_of_room nnn room, exec_ret_of_top room rfl, ?_, rfl, ?_, fun _ => rfl, rfl, ⟨rfl, rfl⟩, fun _ => rfl,
    ⟨rfl, rfl⟩, ⟨rfl, rfl, rfl⟩, rfl, rfl, rfl⟩
  · simp [returnAddress]
  · intro k hk below
    exact Vector.getElem_set_ne room hk (Nat.ne_of_gt below)

/-! ### Steps that cannot fetch or decode, and stops -/

/-- 30_encoding R84, R85, R86: the words of no row are errors of the decoder. -/
theorem decodeWord_malformed {w : Word} (h : MalformedBySpec w) : decodeWord w = .error (.malformed w) := by
  rcases h with ⟨cls, notCls, notRet⟩ | ⟨cls, code⟩ | ⟨cls, code⟩
  · simp only [decodeWord, classOf_toNat, cls]
    unfold decodeClass0
    rw [nnnOf_toNat]
    split
    · omega
    · omega
    · rfl
  · simp only [decodeWord, classOf_toNat, cls]
    unfold decodeClass8
    rw [nOf_toNat]
    split <;> simp_all
  · simp only [decodeWord, classOf_toNat, cls]
    unfold decodeClassF
    rw [kkOf_toNat]
    split <;> simp_all

/-- The STEP of a running block, unscheduled or named by the host's list, runs an instruction. -/
theorem step_of_running {s : State} {draw : Option Byte} {later : List HostEvent} (running : s.status = .running)
    (served : (s.host = [] ∧ draw = none ∧ later = []) ∨ ∃ r, draw = some r ∧ s.host = .step r :: later) :
    step s = runInstruction (beginStep draw { s with host := later }) := by
  rcases served with ⟨host, rfl, rfl⟩ | ⟨r, rfl, host⟩
  · rw [show ({ s with host := [] } : State) = s by rw [← host]]
    simp only [step, transition, host, unscheduled, stepEvent, running]
  · simp only [step, transition, host, applyEvent, stepEvent, running]

/-- Settles O7: the step is `runInstruction` on the begun step, where neither error reaches `exec`. -/
theorem fetchAndDecodeErrorsAreTaken : Obligations.FetchAndDecodeErrorsAreTaken := by
  intro s draw later running served
  rw [step_of_running running served]
  refine ⟨fun bad fetch => ?_, fun w fetch malformed => ?_⟩
  · simp only [runInstruction, beginStep, fetch]
    rfl
  · simp only [runInstruction, beginStep, fetch, decodeWord_malformed malformed]
    rfl

theorem loadEnabled_eq_false {s : State} : loadEnabled s = false ↔ s.loaded = true ∨ s.started = true := by
  cases hl : s.loaded <;> simp [loadEnabled, hl]

/-- An unscheduled step in a status other than `RUNNING` answers the same state (log entries 5 and 7). -/
theorem step_of_stopped {s : State} (host : s.host = []) (stopped : s.status ≠ .running) : step s = .next s := by
  simp only [step, transition, host, unscheduled]
  cases hs : s.status with
  | running => exact absurd hs stopped
  | waitKey x => rfl
  | faulted rec => simp only [stepEvent, hs]

/-- Every instruction answers a next state: its errors are taken, not stops (60_exceptions R212). -/
theorem exec_answers (i : Instr) (s : State) : ∃ t, exec i s = .next t := by
  have stores (i : Instr) (ws : List Byte) : ∃ t, storeThrough i ws s = .next t := by
    rcases storeThrough_cases i ws s with ⟨m, -, e⟩ | ⟨m, bad, -, e⟩ <;> exact ⟨_, e⟩
  cases i
  case ldB x => exact stores _ _
  case ldMemRegs x => exact stores _ _
  case ret => simp only [exec, execRet]; split <;> exact ⟨_, rfl⟩
  case call nnn => simp only [exec, execCall]; split <;> exact ⟨_, rfl⟩
  case drw x y n => simp only [exec, execDrw]; split <;> exact ⟨_, rfl⟩
  case ldRegsMem x => simp only [exec, execLdRegsMem]; split <;> exact ⟨_, rfl⟩
  all_goals exact ⟨_, rfl⟩

theorem runInstruction_answers (s : State) : ∃ t, runInstruction s = .next t := by
  unfold runInstruction
  split
  · exact ⟨_, rfl⟩
  · split
    · exact exec_answers _ s
    · exact ⟨_, rfl⟩

/-- A STEP event is enabled in every status but `WAIT_KEY` (30_encoding R91). -/
theorem stepEvent_answers (r : Option Byte) {s : State} (enabled : ∀ x, s.status ≠ .waitKey x) :
    ∃ t, stepEvent r s = .next t := by
  unfold stepEvent
  cases hs : s.status with
  | running => exact runInstruction_answers _
  | faulted rec => exact ⟨s, rfl⟩
  | waitKey x => exact absurd hs (enabled x)

/-- Settles O45: STEP stops only in `WAIT_KEY`, LOAD only where it is not enabled, and the other events always answer. -/
theorem onlyEventsNotEnabledStop : Obligations.OnlyEventsNotEnabledStop := by
  intro s
  refine ⟨fun x wait => ⟨fun r => by simp only [applyEvent, stepEvent, wait], fun host =>
      step_of_stopped host (by simp [wait])⟩, fun rec faulted host => step_of_stopped host (by simp [faulted]),
    fun image late => by simp [applyEvent, loadEnabled_eq_false.mpr late], fun e stops => ?_⟩
  cases e
  case step r =>
    by_cases wait : ∃ x, s.status = .waitKey x
    · exact .inl ⟨⟨r, rfl⟩, wait⟩
    · obtain ⟨t, h⟩ := stepEvent_answers (some r) (not_exists.mp wait)
      exact absurd h (stops t)
  case load image =>
    refine .inr ⟨⟨image, rfl⟩, loadEnabled_eq_false.mp (Bool.eq_false_iff.mpr fun enabled => ?_)⟩
    exact stops (loadImage image s) (by simp [applyEvent, enabled])
  all_goals exact absurd rfl (stops _)

end Sys2Proof.Machine
end

section
/-! PROOFS for the family 20_memory: all that a step can do to memory, packaged as one rule for the invariants of memory
(`step_keeps_mem`), what a fetch sees, and what is read back after bytes were placed. -/

namespace Sys2Proof.Machine

/-! ### What a step can do to memory -/

theorem imageWellFormed_iff {image : List Byte} : imageWellFormed image = true ↔ image.length ≤ Config.maxImage := by
  simp [imageWellFormed]

/-- LOAD of an image that fits (20_memory R61). -/
theorem loadImage_of_fits {image : List Byte} (fits : image.length ≤ Config.maxImage) (s : State) :
    loadImage image s = { s with mem := putBytes Config.progBase image s.mem, loaded := true } :=
  if_pos (imageWellFormed_iff.mpr fits)

/-- LOAD of an image too large (20_memory R61). -/
theorem loadImage_of_too_large {image : List Byte} (large : Config.maxImage < image.length) (s : State) :
    loadImage image s = s :=
  if_neg (mt imageWellFormed_iff.mp (Nat.not_le.mpr large))

theorem keyPress_mem (key : Nibble) (s : State) : (keyPress key s).mem = s.mem := by
  unfold keyPress
  split <;> rfl

/-- An event other than STEP keeps memory, empties its list of changed cells, or places an image that fits. -/
theorem AfterEvent.mem {s t : State} (after : AfterEvent s t) :
    t.mem = s.mem ∨ t.mem = [] ∨
      ∃ image : List Byte, image.length ≤ Config.maxImage ∧ t.mem = putBytes Config.progBase image s.mem := by
  rcases after with rfl | rfl | ⟨image, -, rfl⟩ | ⟨key, rfl⟩ | rfl | rfl
  · exact .inl rfl
  · exact .inr (.inl rfl)
  · rcases Nat.lt_or_ge Config.maxImage image.length with large | fits
    · exact .inl (by rw [loadImage_of_too_large large])
    · exact .inr (.inr ⟨image, fits, by rw [loadImage_of_fits fits]⟩)
  · exact .inl (keyPress_mem key s)
  · exact .inl rfl
  · exact .inl rfl

/-- A step keeps what is true of memory at reset and is kept by the placing of an image and by guarded stores: nothing else
changes memory. -/
theorem step_keeps_mem {Q : Memory → Prop} {s t : State} (h : step s = .next t) (hs : Q s.mem) (reset : Q [])
    (load : ∀ {m} {image : List Byte}, image.length ≤ Config.maxImage → Q m → Q (putBytes Config.progBase image m))
    (stores : ∀ {m} a ws, Q m → Q (storeBytes a ws m).1) : Q t.mem := by
  refine step_keeps (P := fun s => Q s.mem) h hs (fun _ _ hs => hs) (fun {s t} hs after => ?_) (fun _ _ _ hs => hs)
    (fun _ _ _ _ _ hs => hs) (fun {i s t} _ _ _ hs ran => ?_)
  · rcases after.mem with same | empty | ⟨image, fits, placed⟩
    · exact same ▸ hs
    · exact empty ▸ reset
    · exact placed ▸ load fits hs
  · rcases exec_mem ran with same | ⟨ws, stored⟩
    · exact same ▸ hs
    · exact stored ▸ stores s.i.toNat ws hs

/-- An image that fits ends inside memory. -/
theorem progBase_add_le {image : List Byte} (fits : image.length ≤ Config.maxImage) :
    Config.progBase + image.length ≤ Config.memSize := by
  simp only [Config.maxImage, Config.memSize, Config.progBase] at *
  omega

/-- Settles O50: the empty list is canonical, and both ways of writing bytes keep the form. -/
theorem stepKeepsMemoryCanonical : Obligations.StepKeepsMemoryCanonical := by
  intro s t hs h
  exact step_keeps_mem (Q := fun m => m.wf = true) h hs rfl
    (fun fits hm => wf_putBytes hm Config.progBase _ (progBase_add_le fits)) (fun a ws hm => wf_storeBytes hm a ws)

/-- A LOAD writes from `PROG_BASE` upward, so no byte below it (20_memory R60, R61). -/
theorem readByte_load_reserved {m : Memory} (hm : m.wf = true) {image : List Byte}
    (fits : image.length ≤ Config.maxImage) {a : Nat} (reserved : a < Config.progBase) :
    readByte (putBytes Config.progBase image m) a = readByte m a := by
  rw [readByte_putBytes hm Config.progBase image (progBase_add_le fits), if_neg (by omega)]

/-- Settles O51: together with the canonical form, which says what is read back, the reserved bytes are kept by LOAD and by every
guarded store. -/
theorem stepKeepsReservedRegion : Obligations.StepKeepsReservedRegion := by
  intro s t hm hr h
  have both := step_keeps_mem (Q := fun m => m.wf = true ∧ ∀ a, a < Config.progBase → readByte m a = resetByte a) h
    ⟨hm, hr⟩ ⟨rfl, fun _ _ => rfl⟩
    (fun fits ⟨hm, hr⟩ => ⟨wf_putBytes hm Config.progBase _ (progBase_add_le fits),
      fun a ha => (readByte_load_reserved hm fits ha).trans (hr a ha)⟩)
    (fun b ws ⟨hm, hr⟩ => ⟨wf_storeBytes hm b ws,
      fun a ha => (readByte_storeBytes_reserved hm b ws ha).trans (hr a ha)⟩)
  exact both.2

/-! ### What a fetch sees (20_memory R54, R55) -/

theorem wordOfBytes_toNat (hi lo : Byte) : (wordOfBytes hi lo).toNat = hi.toNat * 0x100 + lo.toNat :=
  toNat_append_add hi lo

theorem fetchWord_inside (m : Memory) {a : Nat} (inside : a + 1 < Config.memSize) :
    fetchWord m a = .ok (wordOfBytes (readByte m a) (readByte m (a + 1))) :=
  if_neg (Nat.not_le.mpr inside)

theorem fetchWord_outside (m : Memory) {a : Nat} (outside : Config.memSize ≤ a + 1) :
    fetchWord m a = .error (if Config.memSize ≤ a then a else a + 1) :=
  if_pos outside

/-- Settles O6: the three ranges of the address. -/
theorem fetchIsBigEndianAndGuarded : Obligations.FetchIsBigEndianAndGuarded := by
  intro m a
  refine ⟨fun past => ?_, fun last => ?_, fun inside => ⟨_, fetchWord_inside m inside, wordOfBytes_toNat _ _⟩⟩
  · rw [fetchWord_outside m (by omega), if_pos past]
  · rw [fetchWord_outside m (by omega), if_neg (by omega)]

/-- Every fetch that holds the byte at an address sees what is read there. -/
theorem fetchSees_readByte (m : Memory) (a : Nat) : FetchSees m a (readByte m a).toNat := by
  refine ⟨fun inside => ⟨_, fetchWord_inside m inside, ?_⟩, ?_⟩
  · have := (readByte m (a + 1)).isLt
    rw [wordOfBytes_toNat]
    omega
  · rintro f rfl inside
    refine ⟨_, fetchWord_inside m inside, ?_⟩
    have := (readByte m (f + 1)).isLt
    rw [wordOfBytes_toNat]
    omega

/-! ### Bytes placed and read back -/

section Placed

variable {m : Memory} {a : Nat} {ws : List Byte}

/-- A placed byte is read back. -/
theorem readByte_putBytes_placed (hm : m.wf = true) (fits : a + ws.length ≤ Config.memSize) {k : Nat}
    (placed : k < ws.length) : readByte (putBytes a ws m) (a + k) = ws.getD k 0 := by
  rw [readByte_putBytes hm a ws fits, if_pos ⟨Nat.le_add_right a k, by omega⟩, Nat.add_sub_cancel_left]

/-- Every fetch that holds a placed byte sees it. -/
theorem fetchSees_placed (hm : m.wf = true) (fits : a + ws.length ≤ Config.memSize) {k : Nat} (placed : k < ws.length) :
    FetchSees (putBytes a ws m) (a + k) (ws.getD k 0).toNat :=
  readByte_putBytes_placed hm fits placed ▸ fetchSees_readByte _ _

/-- A fetch where bytes were placed answers the first two of them. -/
theorem fetchWord_placed (hm : m.wf = true) (fits : a + ws.length ≤ Config.memSize) (two : 1 < ws.length) :
    ∃ w, fetchWord (putBytes a ws m) a = .ok w ∧ w.toNat = (ws.getD 0 0).toNat * 0x100 + (ws.getD 1 0).toNat := by
  refine ⟨_, fetchWord_inside _ (by omega), ?_⟩
  have first := readByte_putBytes_placed hm fits (Nat.zero_lt_of_lt two)
  have second := readByte_putBytes_placed hm fits two
  rw [Nat.add_zero] at first
  rw [wordOfBytes_toNat, first, second]

end Placed

/-! ### LOAD (20_memory R61, R62) -/

theorem loadEnabled_of_fresh {s : State} (loaded : s.loaded = false) (started : s.started = false) :
    loadEnabled s = true := by
  simp [loadEnabled, loaded, started]

/-- Settles O44: the image lies where `putBytes` places it; one too large fails the check and nothing is placed. -/
theorem loadCopiesInFullOrFails : Obligations.LoadCopiesInFullOrFails := by
  intro image s hm loaded started
  have enabled := loadEnabled_of_fresh loaded started
  have served : applyEvent (.load image) s = .next (loadImage image s) := if_pos enabled
  have reply : eventReply (.load image) s = if imageWellFormed image then .ok else .capacityExceeded := if_pos enabled
  refine ⟨fun fits => ?_, fun large => ?_⟩
  · have inside := progBase_add_le fits
    rw [reply, served, if_pos (imageWellFormed_iff.mpr fits), loadImage_of_fits fits]
    exact ⟨rfl, _, rfl, fun k placed => readByte_putBytes_placed hm inside placed,
      fun a outside => (readByte_putBytes hm _ image inside a).trans (if_neg (by omega)),
      rfl, started, rfl, rfl, fun _ => rfl, rfl, ⟨rfl, rfl⟩, ⟨rfl, rfl⟩, ⟨rfl, rfl⟩, rfl, rfl, rfl⟩
  · rw [reply, served, if_neg (mt imageWellFormed_iff.mp (Nat.not_le.mpr large)), loadImage_of_too_large large]
    exact ⟨rfl, rfl⟩

/-! ### Stores and the fetch after them (20_memory R68) -/

/-- A store that lies in the general region places all its bytes. -/
theorem storeThrough_inside (i : Instr) {ws : List Byte} {s : State} (low : Config.progBase ≤ s.i.toNat)
    (fits : s.i.toNat + ws.length ≤ Config.memSize) :
    storeThrough i ws s = .next (advance (setMem (putBytes s.i.toNat ws s.mem) s)) := by
  rcases storeThrough_cases i ws s with ⟨m, stored, e⟩ | ⟨m, bad, stored, e⟩ <;>
    rw [storeBytes_ok _ _ _ low fits] at stored <;> cases stored
  exact e

theorem getD_regsThrough {x k : Nibble} (named : k.toNat ≤ x.toNat) (s : State) :
    (regsThrough x s).getD k.toNat 0 = reg k s := by
  rw [regsThrough_eq, List.getD_eq_getElem _ _ (by simp; omega)]
  simp

/-- FX55 in the general region (43_index_memory R174). -/
theorem exec_ldMemRegs_inside {x : Nibble} {s : State} (low : Config.progBase ≤ s.i.toNat)
    (fits : s.i.toNat + (regsThrough x s).length ≤ Config.memSize) :
    exec (.ldMemRegs x) s = .next (advance (setMem (putBytes s.i.toNat (regsThrough x s) s.mem) s)) :=
  storeThrough_inside (.ldMemRegs x) low fits

/-- FX33 in the general region (43_index_memory R173). -/
theorem exec_ldB_inside {x : Nibble} {s : State} (low : Config.progBase ≤ s.i.toNat)
    (fits : s.i.toNat + (bcdDigits (reg x s)).length ≤ Config.memSize) :
    exec (.ldB x) s = .next (advance (setMem (putBytes s.i.toNat (bcdDigits (reg x s)) s.mem) s)) :=
  storeThrough_inside (.ldB x) low fits

@[simp] theorem bcdDigits_length (w : Byte) : (bcdDigits w).length = 3 := rfl

/-- The digits as numbers: none needs more than a byte. -/
theorem bcdDigits_toNat (w : Byte) :
    ((bcdDigits w).getD 0 0).toNat = w.toNat / 100 ∧ ((bcdDigits w).getD 1 0).toNat = w.toNat / 10 % 10 ∧
      ((bcdDigits w).getD 2 0).toNat = w.toNat % 10 := by
  have := w.isLt
  simp only [bcdDigits, List.getD_cons_zero, List.getD_cons_succ, BitVec.toNat_ofNat]
  omega

/-- The half of O60 about FX55. -/
theorem ldMemRegs_seen_by_fetch {x : Nibble} {s : State} (hm : s.mem.wf = true) (low : Config.progBase ≤ s.i.toNat)
    (high : s.i.toNat + x.toNat < Config.memSize) :
    ∃ t, exec (.ldMemRegs x) s = .next t ∧ t.pc = s.pc + 2 ∧
      (∀ k : Nibble, k.toNat ≤ x.toNat → FetchSees t.mem (s.i.toNat + k.toNat) (reg k s).toNat) ∧
      (1 ≤ x.toNat → s.i = s.pc + 2 →
        ∃ w, fetchWord t.mem t.pc.toNat = .ok w ∧ w.toNat = (reg 0#4 s).toNat * 0x100 + (reg 1#4 s).toNat) := by
  have fits : s.i.toNat + (regsThrough x s).length ≤ Config.memSize := by rw [regsThrough_length]; omega
  refine ⟨_, exec_ldMemRegs_inside low fits, rfl, fun k named => ?_, fun two next => ?_⟩
  · rw [← getD_regsThrough named s]
    exact fetchSees_placed hm fits (by rw [regsThrough_length]; omega)
  · have first := getD_regsThrough (x := x) (k := 0#4) (Nat.zero_le _) s
    have second := getD_regsThrough (x := x) (k := 1#4) two s
    rw [advance_pc, setMem_pc, ← next, ← first, ← second]
    exact fetchWord_placed hm fits (by rw [regsThrough_length]; omega)

/-- The half of O60 about FX33. -/
theorem ldB_seen_by_fetch {x : Nibble} {s : State} (hm : s.mem.wf = true) (low : Config.progBase ≤ s.i.toNat)
    (high : s.i.toNat + 2 < Config.memSize) :
    ∃ t, exec (.ldB x) s = .next t ∧ t.pc = s.pc + 2 ∧ FetchSees t.mem s.i.toNat ((reg x s).toNat / 100) ∧
      FetchSees t.mem (s.i.toNat + 1) ((reg x s).toNat / 10 % 10) ∧
      FetchSees t.mem (s.i.toNat + 2) ((reg x s).toNat % 10) ∧
      (s.i = s.pc + 2 →
        ∃ w, fetchWord t.mem t.pc.toNat = .ok w ∧
          w.toNat = (reg x s).toNat / 100 * 0x100 + (reg x s).toNat / 10 % 10) := by
  have fits : s.i.toNat + (bcdDigits (reg x s)).length ≤ Config.memSize := by rw [bcdDigits_length]; omega
  obtain ⟨hundreds, tens, ones⟩ := bcdDigits_toNat (reg x s)
  rw [← hundreds, ← tens, ← ones]
  refine ⟨_, exec_ldB_inside low fits, rfl, fetchSees_placed hm fits (k := 0) (by simp), fetchSees_placed hm fits (by simp),
    fetchSees_placed hm fits (by simp), fun next => ?_⟩
  rw [advance_pc, setMem_pc, ← next]
  exact fetchWord_placed hm fits (by simp)

/-- Settles O60: the stored bytes are placed in full, and a fetch reads what was placed. -/
theorem storeIsSeenByTheNextFetch : Obligations.StoreIsSeenByTheNextFetch :=
  fun _ _ hm low => ⟨ldMemRegs_seen_by_fetch hm low, ldB_seen_by_fetch hm low⟩

end Sys2Proof.Machine
end

section
/-! PROOFS for the family 30_encoding: the two round trips of encoder and decoder, what each word decodes to, and the step that
runs what was decoded. -/

namespace Sys2Proof.Machine

/-! ### Decoding what was encoded -/

/-- The decoder reads back every field the encoder placed: class and secondary code select the row, and the fields are where
30_encoding R81 has them. -/
theorem decodeWord_encode (i : Instr) : decodeWord (encode i) = .ok i := by
  cases i with
  | cls | ret => rfl
  -- rows without a secondary code, in the three layouts
  | jp _ | call _ | ldI _ | jpV0 _ | classE _ | seImm _ _ | sneImm _ _ | ldImm _ _ | addImm _ _ | rnd _ _ | seReg _ _ _
  | sneReg _ _ _ | drw _ _ _ => simp [encode, decodeWord]
  | ldReg _ _ | orReg _ _ | andReg _ _ | xorReg _ _ | addReg _ _ | sub _ _ | shr _ _ | subn _ _ | shl _ _ =>
    simp [encode, decodeWord, decodeClass8]
  | ldVxDt _ | ldVxK _ | ldDt _ | ldSt _ | addI _ | ldF _ | ldB _ | ldMemRegs _ | ldRegsMem _ =>
    simp [encode, decodeWord, decodeClassF]

/-- The bytes of an instruction decode as its word does, and the bytes after them are left over (20_memory R55). -/
theorem decode_encodeBytes_append (i : Instr) (rest : List Byte) : decode (encodeBytes i ++ rest) = .ok (i, rest) := by
  simp only [encodeBytes, List.cons_append, List.nil_append, decode, wordOfBytes_bytes, decodeWord_encode]

/-- Settles O2: every instruction is well-formed, so both round trips hold without that premise. -/
theorem decodeUndoesEncode : Obligations.DecodeUndoesEncode :=
  fun i _ => ⟨decodeWord_encode i, decode_encodeBytes_append i⟩

/-! ### Encoding what was decoded -/

section Fields

variable {w : Word} {c : Nibble}

/-- A word is its class and its address (30_encoding R81). -/
theorem append_nnnOf (cls : (classOf w).toNat = c.toNat) : c ++ nnnOf w = w := by
  apply BitVec.eq_of_toNat_eq
  rw [classOf_toNat] at cls
  simp only [toNat_append_add, nnnOf_toNat]
  omega

/-- A word is its class, its register index and its low byte (30_encoding R81). -/
theorem append_xOf_kkOf (cls : (classOf w).toNat = c.toNat) : c ++ xOf w ++ kkOf w = w := by
  apply BitVec.eq_of_toNat_eq
  rw [classOf_toNat] at cls
  simp only [toNat_append_add, xOf_toNat, kkOf_toNat]
  omega

/-- A word is its four nibbles (30_encoding R81). -/
theorem append_xOf_yOf_nOf (cls : (classOf w).toNat = c.toNat) : c ++ xOf w ++ yOf w ++ nOf w = w := by
  apply BitVec.eq_of_toNat_eq
  rw [classOf_toNat] at cls
  simp only [toNat_append_add, xOf_toNat, yOf_toNat, nOf_toNat]
  omega

/-- A word with a known secondary code of 12 bits, as in class 0 (30_encoding R84). -/
theorem append_addr_of_code (cls : (classOf w).toNat = c.toNat) {nnn : Addr} (code : (nnnOf w).toNat = nnn.toNat) :
    c ++ nnn = w :=
  BitVec.eq_of_toNat_eq code ▸ append_nnnOf cls

/-- A word with a known secondary code of 8 bits, as in class 0xF (30_encoding R86). -/
theorem append_byte_of_code (cls : (classOf w).toNat = c.toNat) {kk : Byte} (code : (kkOf w).toNat = kk.toNat) :
    c ++ xOf w ++ kk = w :=
  BitVec.eq_of_toNat_eq code ▸ append_xOf_kkOf cls

/-- A word with a known secondary code of 4 bits, as in class 8 (30_encoding R85). -/
theorem append_nibble_of_code (cls : (classOf w).toNat = c.toNat) {n : Nibble} (code : (nOf w).toNat = n.toNat) :
    c ++ xOf w ++ yOf w ++ n = w :=
  BitVec.eq_of_toNat_eq code ▸ append_xOf_yOf_nOf cls

end Fields

theorem encode_of_decodeClass0 {w : Word} {i : Instr} (cls : (classOf w).toNat = 0x0) (h : decodeClass0 w = .ok i) :
    encode i = w := by
  unfold decodeClass0 at h
  split at h <;> cases h
  case h_1 code => exact append_addr_of_code (c := 0x0#4) (nnn := 0x0E0#12) cls code
  case h_2 code => exact append_addr_of_code (c := 0x0#4) (nnn := 0x0EE#12) cls code

theorem encode_of_decodeClass8 {w : Word} {i : Instr} (cls : (classOf w).toNat = 0x8) (h : decodeClass8 w = .ok i) :
    encode i = w := by
  unfold decodeClass8 at h
  split at h <;> cases h
  all_goals exact append_nibble_of_code (c := 0x8#4) cls ‹_›

theorem encode_of_decodeClassF {w : Word} {i : Instr} (cls : (classOf w).toNat = 0xF) (h : decodeClassF w = .ok i) :
    encode i = w := by
  unfold decodeClassF at h
  split at h <;> cases h
  all_goals exact append_byte_of_code (c := 0xF#4) cls ‹_›

/-- The instruction holds every field of its word, and its row fixes the class and the secondary code. -/
theorem encode_of_decodeWord {w : Word} {i : Instr} (h : decodeWord w = .ok i) : encode i = w := by
  unfold decodeWord at h
  split at h
  case h_1 cls => exact encode_of_decodeClass0 cls h
  case h_9 cls => exact encode_of_decodeClass8 cls h
  case h_16 cls => exact encode_of_decodeClassF cls h
  case h_17 => cases h
  all_goals obtain rfl := Except.ok.inj h
  case h_2 cls | h_3 cls | h_11 cls | h_12 cls | h_15 cls => exact append_nnnOf cls
  case h_4 cls | h_5 cls | h_7 cls | h_8 cls | h_13 cls => exact append_xOf_kkOf cls
  case h_6 cls | h_10 cls | h_14 cls => exact append_xOf_yOf_nOf cls

/-- Settles O3: no premise beside the decoding is needed. -/
theorem encodeUndoesDecode : Obligations.EncodeUndoesDecode :=
  fun _ _ => encode_of_decodeWord

/-! ### What each word decodes to -/

theorem code_of_decodeClass0_error {w : Word} {e : DecodeError} (h : decodeClass0 w = .error e) :
    (nnnOf w).toNat ≠ 0x0E0 ∧ (nnnOf w).toNat ≠ 0x0EE := by
  unfold decodeClass0 at h
  split at h <;> cases h
  case h_3 notCls notRet => exact ⟨notCls, notRet⟩

theorem code_of_decodeClass8_error {w : Word} {e : DecodeError} (h : decodeClass8 w = .error e) :
    (nOf w).toNat ∈ [0x8, 0x9, 0xA, 0xB, 0xC, 0xD, 0xF] := by
  have := (nOf w).isLt
  unfold decodeClass8 at h
  split at h <;> cases h
  simp only [imp_false, List.mem_cons, List.not_mem_nil, or_false] at *
  omega

theorem code_of_decodeClassF_error {w : Word} {e : DecodeError} (h : decodeClassF w = .error e) :
    (kkOf w).toNat ∉ [0x07, 0x0A, 0x15, 0x18, 0x1E, 0x29, 0x33, 0x55, 0x65] := by
  unfold decodeClassF at h
  split at h <;> cases h
  simp only [imp_false, List.mem_cons, List.not_mem_nil, or_false] at *
  omega

/-- The decoder's errors are malformed words of 30_encoding R84, R85 and R86: in the other classes every word has a row. -/
theorem malformedBySpec_of_error {w : Word} {e : DecodeError} (h : decodeWord w = .error e) : MalformedBySpec w := by
  have inRange := (classOf w).isLt
  unfold decodeWord at h
  split at h
  case h_1 cls =>
    obtain ⟨notCls, notRet⟩ := code_of_decodeClass0_error h
    rw [classOf_toNat] at cls
    rw [nnnOf_toNat] at notCls notRet
    exact .inl ⟨cls, by omega, by omega⟩
  case h_9 cls => exact .inr (.inl ⟨classOf_toNat w ▸ cls, nOf_toNat w ▸ code_of_decodeClass8_error h⟩)
  case h_16 cls => exact .inr (.inr ⟨classOf_toNat w ▸ cls, kkOf_toNat w ▸ code_of_decodeClassF_error h⟩)
  case h_17 =>
    simp only [imp_false] at *
    omega
  all_goals cases h

/-- A word that no rule calls malformed decodes to an instruction. -/
theorem decodeWord_ok_of_not_malformed {w : Word} (legal : ¬ MalformedBySpec w) : ∃ i, decodeWord w = .ok i := by
  cases h : decodeWord w with
  | ok i => exact ⟨i, rfl⟩
  | error e => exact absurd (malformedBySpec_of_error h) legal

/-- Class 0xE is one row whatever its twelve bits are (30_encoding R88). -/
theorem decodeWord_classE_iff (w : Word) : (∃ nnn, decodeWord w = .ok (.classE nnn)) ↔ w.toNat / 0x1000 = 0xE := by
  constructor
  · rintro ⟨nnn, h⟩
    rw [← encode_of_decodeWord h]
    exact (Laws.RowFits.classE nnn).1
  · intro cls
    exact ⟨nnnOf w, by simp only [decodeWord, classOf_toNat, cls]⟩

/-- Settles O4: the decoder's errors and the malformed words are the same. -/
theorem everyWordDecodesToExactlyOneThing : Obligations.EveryWordDecodesToExactlyOneThing :=
  fun w => ⟨⟨malformedBySpec_of_error, decodeWord_malformed⟩, decodeWord_classE_iff w, decodeWord_ok_of_not_malformed⟩

/-- Settles O1: thirteen of the words are encodings, which the decoder reads back; three are malformed. -/
theorem sampleWordsDecodeAsListed : Obligations.SampleWordsDecodeAsListed :=
  ⟨decodeWord_encode .cls, decodeWord_encode .ret, decodeWord_encode (.jp 0x2A4#12), decodeWord_encode (.call 0x300#12),
    decodeWord_encode (.seImm 1#4 0x10#8), decodeWord_encode (.seReg 1#4 2#4 1#4), decodeWord_encode (.ldImm 0xA#4 0x42#8),
    decodeWord_encode (.shl 1#4 2#4), decodeWord_encode (.jpV0 0x300#12), decodeWord_encode (.drw 1#4 1#4 5#4),
    decodeWord_encode (.classE 0x19E#12), decodeWord_encode (.ldVxK 3#4), decodeWord_encode (.ldRegsMem 2#4),
    decodeWord_malformed (.inl (by decide)), decodeWord_malformed (.inr (.inl (by decide))),
    decodeWord_malformed (.inr (.inr (by decide)))⟩

/-! ### The step (30_encoding R91) -/

/-- Settles O11: with an empty list a running block runs an instruction, and any other answers the same state. -/
theorem instructionsAndUnscheduledStepsAnswer : Obligations.InstructionsAndUnscheduledStepsAnswer := by
  refine ⟨exec_answers, fun s host => ?_⟩
  by_cases running : s.status = .running
  · rw [step_of_running running (.inl ⟨host, rfl, rfl⟩)]
    exact runInstruction_answers _
  · exact ⟨s, step_of_stopped host running⟩

/-- Fetch and decode are done once the word at `pc` is known to be an instruction. -/
theorem runInstruction_of_decodes {s : State} {i : Instr} (inside : s.pc.toNat + 1 < Config.memSize)
    (decodes : decodeWord (wordOfBytes (readByte s.mem s.pc.toNat) (readByte s.mem (s.pc.toNat + 1))) = .ok i) :
    runInstruction s = exec i s := by
  simp only [runInstruction, fetchWord_inside s.mem inside, decodes]

/-- The STEP of a running block runs the instruction at `pc`, on the state the STEP has begun. -/
theorem step_of_decodes {s : State} {i : Instr} {draw : Option Byte} {later : List HostEvent} (running : s.status = .running)
    (served : (s.host = [] ∧ draw = none ∧ later = []) ∨ ∃ r, draw = some r ∧ s.host = .step r :: later)
    (inside : s.pc.toNat + 1 < Config.memSize)
    (decodes : decodeWord (wordOfBytes (readByte s.mem s.pc.toNat) (readByte s.mem (s.pc.toNat + 1))) = .ok i) :
    step s = exec i { s with started := true, draw := draw, host := later } :=
  (step_of_running running served).trans
    (runInstruction_of_decodes (s := beginStep draw { s with host := later }) inside decodes)

/-- Settles O5: the two kinds of STEP, the empty list being that of the state itself. -/
theorem stepRunsTheDecodedInstruction : Obligations.StepRunsTheDecodedInstruction := by
  intro s i running inside decodes _
  refine ⟨fun host => ?_, fun r later host => ?_⟩
  · rw [step_of_decodes running (.inl ⟨host, rfl, rfl⟩) inside decodes, ← host]
  · exact step_of_decodes running (.inr ⟨r, rfl, host⟩) inside decodes

end Sys2Proof.Machine
end

section
/-! PROOFS for the family 40_display: the rows of a sprite as one pixelwise rule, for the picture and for the collision; what DRW
and CLS do is read off it. -/

namespace Sys2Proof.Machine

/-! ### One row over all eight columns (40_display R101, R102, R105) -/

theorem mem_spriteColumns {c : Nat} : c ∈ [0, 1, 2, 3, 4, 5, 6, 7] ↔ c < 8 := by
  simp only [List.mem_cons, List.not_mem_nil, or_false]
  omega

theorem pix_spriteRow (rule : CollisionRule) (row : Byte) (x : Nat) {y : Nat} (hy : y < Config.dispH) (acc : Grid × Bool)
    {qx : Nat} (hx : qx < Config.dispW) (qy : Nat) :
    pix (blitRow rule row x y [0, 1, 2, 3, 4, 5, 6, 7] acc).1 qx qy =
      if qy = y ∧ x ≤ qx ∧ qx - x < 8 then pix acc.1 qx qy ^^ row.getLsbD (7 - (qx - x)) else pix acc.1 qx qy := by
  simp only [pix_blitRow rule row x y hy [0, 1, 2, 3, 4, 5, 6, 7] (by decide) acc qx qy hx, mem_spriteColumns]

theorem collision_spriteRow (rule : CollisionRule) (row : Byte) (x : Nat) {y : Nat} (hy : y < Config.dispH)
    (acc : Grid × Bool) :
    (blitRow rule row x y [0, 1, 2, 3, 4, 5, 6, 7] acc).2 = true ↔
      acc.2 = true ∨ ∃ c, c < 8 ∧ x + c < Config.dispW ∧
        collisionHit rule (pix acc.1 (x + c) y) (row.getLsbD (7 - c)) = true := by
  simp only [collision_blitRow rule row x y hy [0, 1, 2, 3, 4, 5, 6, 7] (by decide), mem_spriteColumns]

/-! ### The rows of a sprite -/

/-- Each pixel is visited in one row at most: the first row's pixels are not the later rows', so the XORs do not meet. -/
theorem pix_blitRows (rule : CollisionRule) (x y : Nat) (rows : List Byte) (acc : Grid × Bool) {qx qy : Nat}
    (hx : qx < Config.dispW) (hy : qy < Config.dispH) :
    pix (blitRows rule x y rows acc).1 qx qy =
      if x ≤ qx ∧ qx < x + 8 ∧ y ≤ qy ∧ qy < y + rows.length then
        pix acc.1 qx qy ^^ (rows.getD (qy - y) 0).getLsbD (7 - (qx - x))
      else pix acc.1 qx qy := by
  induction rows generalizing y acc with
  | nil => rw [blitRows, if_neg (by simp only [List.length_nil]; omega)]
  | cons row rows ih =>
    rw [blitRows, List.length_cons]
    split
    · rw [if_neg (by omega)]
    · rw [ih, pix_spriteRow rule row x (by omega) acc hx]
      rcases Nat.lt_trichotomy qy y with above | rfl | below
      · rw [if_neg (by omega), if_neg (by omega), if_neg (by omega)]
      · rw [if_neg (by omega), Nat.sub_self, List.getD_cons_zero]
        exact if_congr (by omega) rfl rfl
      · obtain ⟨d, rfl⟩ := Nat.exists_eq_add_of_lt below
        rw [if_neg (c := y + d + 1 = y ∧ _) (by omega), show y + d + 1 - (y + 1) = d by omega,
          show y + d + 1 - y = d + 1 by omega, List.getD_cons_succ]
        exact if_congr (by omega) rfl rfl

/-- A row is drawn before the later ones, but on other pixels, so every hit is one of the picture as it was. -/
theorem collision_blitRows (rule : CollisionRule) (x y : Nat) (rows : List Byte) (acc : Grid × Bool) :
    (blitRows rule x y rows acc).2 = true ↔
      acc.2 = true ∨ ∃ z c, z < rows.length ∧ c < 8 ∧ y + z < Config.dispH ∧ x + c < Config.dispW ∧
        collisionHit rule (pix acc.1 (x + c) (y + z)) ((rows.getD z 0).getLsbD (7 - c)) = true := by
  induction rows generalizing y acc with
  | nil => simp [blitRows]
  | cons row rows ih =>
    rw [blitRows]
    split
    · exact ⟨.inl, fun h => h.resolve_right fun ⟨_, _, _, _, inside, _⟩ => by omega⟩
    · rename_i inside
      have hy := Nat.not_le.mp inside
      rw [ih, collision_spriteRow rule row x hy, or_assoc]
      refine or_congr Iff.rfl (Iff.trans ?_ Nat.or_exists_add_one)
      refine or_congr ?_ (exists_congr fun z => exists_congr fun c => ?_)
      · simp [hy]
      · rw [List.length_cons, Nat.add_lt_add_iff_right, List.getD_cons_succ, Nat.add_right_comm y 1 z, Nat.add_assoc y z 1]
        refine and_congr_right fun _ => and_congr_right fun _ => and_congr_right fun _ => and_congr_right fun hx => ?_
        rw [pix_spriteRow rule row x hy acc hx, if_neg (by omega)]

/-- Settles O13: a blit is `blitRows` from the sprite's corner, with no collision yet. -/
theorem blitIsClippedPixelwiseXor : Obligations.BlitIsClippedPixelwiseXor := by
  intro rule bytes x y g
  refine ⟨fun px py hx hy => pix_blitRows rule x.toNat y.toNat bytes (g, false) hx hy, ?_⟩
  rw [blitSprite, collision_blitRows]
  simp

/-! ### DRW (40_display R107) -/

/-- Under `OLD_SET` the collision is a covered pixel that was set (40_display R103). -/
theorem collision_blitSprite_oldSet (bytes : List Byte) (x y : Byte) (g : Grid) :
    (blitSprite .oldSet bytes x y g).2 = true ↔
      ∃ px py, px < Config.dispW ∧ py < Config.dispH ∧ x.toNat ≤ px ∧ px < x.toNat + 8 ∧ y.toNat ≤ py ∧
        py < y.toNat + bytes.length ∧ pix g px py = true := by
  rw [(blitIsClippedPixelwiseXor .oldSet bytes x y g).2]
  constructor
  · rintro ⟨z, c, hz, hc, hy, hx, hit⟩
    exact ⟨x.toNat + c, y.toNat + z, hx, hy, by omega, by omega, by omega, by omega, hit⟩
  · rintro ⟨px, py, hx, hy, left, right, top, bottom, lit⟩
    obtain ⟨c, rfl⟩ := Nat.exists_eq_add_of_le left
    obtain ⟨z, rfl⟩ := Nat.exists_eq_add_of_le top
    exact ⟨z, c, by omega, by omega, hy, hx, lit⟩

/-- The bytes of a block read that stays inside memory (20_memory R52). -/
def blockBytes (m : Memory) (a n : Nat) : List Byte := (List.range n).map fun k => readByte m (a + k)

@[simp] theorem blockBytes_length (m : Memory) (a n : Nat) : (blockBytes m a n).length = n := by simp [blockBytes]

theorem getD_blockBytes (m : Memory) (a : Nat) {n k : Nat} (hk : k < n) : (blockBytes m a n).getD k 0 = readByte m (a + k) := by
  rw [List.getD_eq_getElem _ _ (by simpa using hk)]
  simp [blockBytes]

/-- The state DRW leaves where its block read answers the bytes `bytes`. -/
def afterDrw (x y : Nibble) (bytes : List Byte) (s : State) : State :=
  advance (setReg vf (flagByte (blitSprite .oldSet bytes (reg x s) (reg y s) s.fb).2)
    (setScreen (blitSprite .oldSet bytes (reg x s) (reg y s) s.fb).1 true s))

theorem exec_drw_inside (x y : Nibble) {n : Nibble} {s : State} (fits : n.toNat = 0 ∨ s.i.toNat + n.toNat ≤ Config.memSize) :
    exec (.drw x y n) s = .next (afterDrw x y (blockBytes s.mem s.i.toNat n.toNat) s) := by
  have read : readBlock s.mem (effectiveAddress s 0) n.toNat = .ok (blockBytes s.mem s.i.toNat n.toNat) :=
    readBlock_ok s.mem s.i.toNat n.toNat fits
  simp only [exec, execDrw, read]
  rfl

theorem exec_drw_outside (x y : Nibble) {n : Nibble} {s : State} (some_row : 0 < n.toNat)
    (past : Config.memSize < s.i.toNat + n.toNat) :
    exec (.drw x y n) s = trap .readOutOfRange (.drw x y n) (some (max s.i.toNat Config.memSize)) s := by
  have read : readBlock s.mem (effectiveAddress s 0) n.toNat = .error (max s.i.toNat Config.memSize) :=
    readBlock_error s.mem s.i.toNat n.toNat some_row past
  simp only [exec, execDrw, read]

/-- A pixel after DRW: the sprite's rows are the bytes at `I` upward. -/
theorem pix_afterDrw (x y : Nibble) (n : Nat) (s : State) {px py : Nat} (hx : px < Config.dispW) (hy : py < Config.dispH) :
    pix (afterDrw x y (blockBytes s.mem s.i.toNat n) s).fb px py =
      if (reg x s).toNat ≤ px ∧ px < (reg x s).toNat + 8 ∧ (reg y s).toNat ≤ py ∧ py < (reg y s).toNat + n then
        (pix s.fb px py ^^
          (readByte s.mem (s.i.toNat + (py - (reg y s).toNat))).getLsbD (7 - (px - (reg x s).toNat)))
      else pix s.fb px py := by
  refine ((blitIsClippedPixelwiseXor _ _ _ _ _).1 px py hx hy).trans ?_
  rw [blockBytes_length]
  split
  · rw [getD_blockBytes _ _ (by omega)]
  · rfl

theorem vf_afterDrw (x y : Nibble) (bytes : List Byte) (s : State) :
    reg vf (afterDrw x y bytes s) = flagByte (blitSprite .oldSet bytes (reg x s) (reg y s) s.fb).2 := by
  rw [afterDrw, reg_advance, reg_setReg_self]

/-- Settles O14: the block read answers its bytes or the first address outside memory; the bytes are blitted, and under `OLD_SET`
`VF` is 1 exactly where a covered pixel was set. -/
theorem drwDrawsOrFaults : Obligations.DrwDrawsOrFaults := by
  intro x y n s
  refine ⟨decodeWord_encode (.drw x y n), fun fits => ?_, exec_drw_outside x y⟩
  have flag := vf_afterDrw x y (blockBytes s.mem s.i.toNat n.toNat) s
  have collides := collision_blitSprite_oldSet (blockBytes s.mem s.i.toNat n.toNat) (reg x s) (reg y s) s.fb
  rw [blockBytes_length] at collides
  refine ⟨_, exec_drw_inside x y fits, fun px py => pix_afterDrw x y n.toNat s, fun hit => ?_, fun clear => ?_, rfl, rfl,
    fun r other => ?_, rfl, ⟨rfl, rfl⟩, ⟨rfl, rfl⟩, fun _ => rfl, ⟨rfl, rfl, rfl⟩, rfl, rfl, rfl⟩
  · exact flag.trans (congrArg flagByte (collides.mpr hit))
  · refine flag.trans (congrArg flagByte (Bool.eq_false_iff.mpr fun collided => ?_))
    obtain ⟨px, py, hx, hy, left, right, top, bottom, lit⟩ := collides.mp collided
    exact Bool.false_ne_true ((clear px py hx hy left right top bottom).symm.trans lit)
  · exact reg_setReg_of_ne (List.ne_of_not_mem_cons other) _ _

/-! ### CLS (40_display R100, R106) -/

/-- Settles O12: the picture CLS leaves is the clear one, and nothing else of the state is written but `pc`. -/
theorem clsClearsScreenAndDirty : Obligations.ClsClearsScreenAndDirty :=
  ⟨decodeWord_encode .cls, fun s => ⟨advance (clearFb s), rfl, pix_clearGrid, rfl, rfl, fun _ => rfl, rfl, ⟨rfl, rfl⟩,
    ⟨rfl, rfl⟩, fun _ => rfl, ⟨rfl, rfl, rfl⟩, rfl, rfl, rfl⟩⟩

end Sys2Proof.Machine
end

section
/-! PROOFS for the family 41_control: what a jump, a skip and the call stack's two faults do, and the Idle end as a jump to its own
address. -/

namespace Sys2Proof.Machine

/-! ### Writing `pc` alone (10_state R24) -/

theorem onlyPc_setPc (w : Word) (s : State) : OnlyPc s (setPc w s) :=
  ⟨fun _ => rfl, rfl, ⟨rfl, rfl⟩, ⟨rfl, rfl⟩, fun _ => rfl, ⟨rfl, rfl⟩, ⟨rfl, rfl, rfl⟩, rfl, rfl, rfl⟩

theorem onlyStackAndPc_setPc (w : Word) (stack : Vector Word Config.stackDepth) (sp : Fin (Config.stackDepth + 1)) (s : State) :
    OnlyStackAndPc s (setPc w { s with stack := stack, sp := sp }) :=
  ⟨fun _ => rfl, rfl, ⟨rfl, rfl⟩, fun _ => rfl, ⟨rfl, rfl⟩, ⟨rfl, rfl, rfl⟩, rfl, rfl, rfl⟩

theorem onlyPc_skipIf (c : Bool) (s : State) : OnlyPc s (skipIf c s) := onlyPc_setPc _ s

/-! ### The targets as numbers -/

/-- `zext_16` keeps the value (30_encoding R82). -/
theorem zextAddr_toNat (nnn : Addr) : (zextAddr nnn).toNat = nnn.toNat :=
  BitVec.toNat_setWidth_of_le (by decide)

/-- The sum of `JP V0` fits 16 bits (41_control R127). -/
theorem jumpV0Target_toNat (nnn : Addr) (w : Byte) : (jumpV0Target nnn w).toNat = nnn.toNat + w.toNat := by
  have := nnn.isLt
  have := w.isLt
  rw [jumpV0Target, BitVec.toNat_ofNat]
  omega

/-! ### RET and CALL (41_control R120, R122) -/

theorem exec_ret_of_empty {s : State} (empty : s.sp.val = 0) : exec .ret s = trap .stackUnderflow .ret none s := by
  simp only [exec, execRet, pop, dif_neg (Nat.not_lt.mpr (Nat.le_of_eq empty))]

theorem exec_call_of_full (nnn : Addr) {s : State} (full : s.sp.val = Config.stackDepth) :
    exec (.call nnn) s = trap .stackOverflow (.call nnn) none s := by
  simp only [exec, execCall, push, dif_neg (Nat.not_lt.mpr (Nat.le_of_eq full.symm))]

/-- Settles O15: with `SP` at `k + 1` the top entry is entry `k`; an empty stack has none. -/
theorem retPopsOrFaults : Obligations.RetPopsOrFaults := by
  refine ⟨decodeWord_encode .ret, fun s => ⟨fun inside some_entry => ?_, exec_ret_of_empty⟩⟩
  exact ⟨_, exec_ret_of_top inside (Nat.sub_add_cancel some_entry).symm, rfl, rfl, rfl, onlyStackAndPc_setPc _ _ _ s⟩

/-- Settles O17: CALL writes the entry at the old `SP` and no other; a full stack has no room for it. -/
theorem callPushesOrFaults : Obligations.CallPushesOrFaults := by
  intro nnn s
  refine ⟨decodeWord_encode (.call nnn), fun room => ?_, exec_call_of_full nnn⟩
  refine ⟨_, exec_call_of_room nnn room, zextAddr_toNat nnn, rfl, ?_, fun k hk other => ?_, onlyStackAndPc_setPc _ _ _ s⟩
  · exact Vector.getElem_set_self room
  · exact Vector.getElem_set_ne room hk other.symm

/-! ### Jumps (41_control R121, R127) -/

/-- Settles O16: the target is the address operand, widened. -/
theorem jpSetsPc : Obligations.JpSetsPc := fun nnn s =>
  ⟨decodeWord_encode (.jp nnn), _, rfl, zextAddr_toNat nnn, onlyPc_setPc _ s⟩

/-- Settles O21: the sum needs 13 bits at most, so it is not reduced. -/
theorem jpV0AddsV0 : Obligations.JpV0AddsV0 := fun nnn s =>
  ⟨decodeWord_encode (.jpV0 nnn), _, rfl, jumpV0Target_toNat nnn _, jumpV0Target_le nnn _, onlyPc_setPc _ s⟩

/-! ### Skips (41_control R123 to R126) -/

theorem skipIf_pc_of_holds {c : Prop} [Decidable c] (h : c) (s : State) : (skipIf (decide c) s).pc = s.pc + 4 := by
  rw [skipIf_pc, decide_eq_true h, if_pos rfl]

theorem skipIf_pc_of_fails {c : Prop} [Decidable c] (h : ¬ c) (s : State) : (skipIf (decide c) s).pc = s.pc + 2 := by
  rw [skipIf_pc, decide_eq_false h, if_neg Bool.false_ne_true]

/-- The two skips on one comparison, as both statements about skips have it. -/
theorem skips_on_eq (a b : Byte) (s : State) :
    OnlyPc s (skipIf (decide (a = b)) s) ∧ OnlyPc s (skipIf (decide (a ≠ b)) s) ∧
      (a = b → (skipIf (decide (a = b)) s).pc = s.pc + 4 ∧ (skipIf (decide (a ≠ b)) s).pc = s.pc + 2) ∧
      (a ≠ b → (skipIf (decide (a = b)) s).pc = s.pc + 2 ∧ (skipIf (decide (a ≠ b)) s).pc = s.pc + 4) :=
  ⟨onlyPc_skipIf _ s, onlyPc_skipIf _ s,
    fun same => ⟨skipIf_pc_of_holds same s, skipIf_pc_of_fails (not_not_intro same) s⟩,
    fun differ => ⟨skipIf_pc_of_fails differ s, skipIf_pc_of_holds differ s⟩⟩

/-- Settles O19: both skips compare `Vx` with the immediate. -/
theorem skipsOnImmediate : Obligations.SkipsOnImmediate := fun x kk s =>
  ⟨decodeWord_encode (.seImm x kk), decodeWord_encode (.sneImm x kk), _, _, rfl, rfl, skips_on_eq (reg x s) kk s⟩

/-- Settles O20: both skips compare `Vx` with `Vy`, and neither reads the low nibble. -/
theorem skipsOnRegisters : Obligations.SkipsOnRegisters := fun x y n s =>
  ⟨decodeWord_encode (.seReg x y n), decodeWord_encode (.sneReg x y n), _, _, rfl, rfl, skips_on_eq (reg x s) (reg y s) s⟩

/-! ### The Idle end (70_reset_and_hazards R249) -/

/-- An address of 12 bits is the target of some JP. -/
theorem exists_zextAddr_eq {p : Word} (addr : p.toNat ≤ 0xFFF) : ∃ nnn, zextAddr nnn = p := by
  refine ⟨p.setWidth 12, BitVec.eq_of_toNat_eq ?_⟩
  rw [zextAddr_toNat, BitVec.toNat_setWidth]
  omega

/-- The word that `Idle` names is the encoding of the jump to that address (30_encoding R81). -/
theorem or_eq_encode_jp {nnn : Addr} {p : Word} (target : zextAddr nnn = p) : 0x1000#16 ||| p = encode (.jp nnn) := by
  rw [← target]
  rfl

theorem exec_jp_self {nnn : Addr} {s : State} (target : zextAddr nnn = s.pc) : exec (.jp nnn) s = .next s := by
  simp only [exec, execJp, setPc, target]

/-- Settles O59: the word at `pc` is the jump to `pc`, which writes the value that stands there, and what a STEP begins with stands
there as well. -/
theorem idleStaysIdle : Obligations.IdleStaysIdle := by
  intro s ⟨running, inside, addr, word⟩ started draw host
  obtain ⟨nnn, target⟩ := exists_zextAddr_eq addr
  rw [fetchWord_inside s.mem inside, or_eq_encode_jp target] at word
  have decodes : decodeWord (wordOfBytes (readByte s.mem s.pc.toNat) (readByte s.mem (s.pc.toNat + 1))) = .ok (.jp nnn) := by
    rw [Except.ok.inj word, decodeWord_encode]
  calc
    step s = exec (.jp nnn) { s with started := true, draw := none, host := [] } :=
      step_of_decodes running (.inl ⟨host, rfl, rfl⟩) inside decodes
    _ = exec (.jp nnn) s := by rw [← started, ← draw, ← host]
    _ = .next s := exec_jp_self target

end Sys2Proof.Machine
end

section
/-! PROOFS for the family 42_alu: the state after one register is written, and after a flag and then a register are; the flags and
the shifted bytes as numbers. -/

namespace Sys2Proof.Machine

/-! ### Writing one register, or `VF` and then one register (42_alu R140) -/

theorem reg_advance_setReg_self (x : Nibble) (w : Byte) (s : State) : reg x (advance (setReg x w s)) = w :=
  reg_setReg_self x w s

theorem onlyRegsAndPc_advance_setReg (x : Nibble) (w : Byte) (s : State) : OnlyRegsAndPc s (advance (setReg x w s)) :=
  ⟨rfl, ⟨rfl, rfl⟩, ⟨rfl, rfl⟩, fun _ => rfl, ⟨rfl, rfl⟩, ⟨rfl, rfl, rfl⟩, rfl, rfl, rfl⟩

theorem sameRegsBut_advance_setReg (x : Nibble) (w : Byte) (s : State) : SameRegsBut [x] s (advance (setReg x w s)) :=
  fun _ other => reg_setReg_of_ne (List.ne_of_not_mem_cons other) w s

/-- What every statement about one register written, and no flag, has in common. -/
theorem advance_setReg_frame (x : Nibble) (w : Byte) (s : State) :
    (advance (setReg x w s)).pc = s.pc + 2 ∧ SameRegsBut [x] s (advance (setReg x w s)) ∧
      OnlyRegsAndPc s (advance (setReg x w s)) :=
  ⟨rfl, sameRegsBut_advance_setReg x w s, onlyRegsAndPc_advance_setReg x w s⟩

/-- The state left by an instruction that writes the flag `f` to `VF` and then `w` to `Vx`. -/
def afterFlag (x : Nibble) (f w : Byte) (s : State) : State := advance (setReg x w (setReg vf f s))

theorem reg_afterFlag_self (x : Nibble) (f w : Byte) (s : State) : reg x (afterFlag x f w s) = w :=
  reg_advance_setReg_self x w _

/-- The flag stays in `VF` unless the second write is to `VF` as well. -/
theorem vf_afterFlag {x : Nibble} (not_vf : x ≠ vf) (f w : Byte) (s : State) : reg vf (afterFlag x f w s) = f := by
  rw [afterFlag, reg_advance, reg_setReg_of_ne not_vf.symm, reg_setReg_self]

/-- What every statement about a flag and a register written has in common. -/
theorem afterFlag_frame (x : Nibble) (f w : Byte) (s : State) :
    (afterFlag x f w s).pc = s.pc + 2 ∧ SameRegsBut [x, vf] s (afterFlag x f w s) ∧ OnlyRegsAndPc s (afterFlag x f w s) := by
  refine ⟨rfl, fun r other => ?_, onlyRegsAndPc_advance_setReg x w (setReg vf f s)⟩
  simp only [List.mem_cons, List.not_mem_nil, or_false, not_or] at other
  obtain ⟨not_x, not_vf⟩ := other
  rw [afterFlag, reg_advance, reg_setReg_of_ne not_x, reg_setReg_of_ne not_vf]

/-! ### Flags as numbers -/

theorem flagByte_decide (c : Prop) [Decidable c] : flagByte (decide c) = if c then 1 else 0 := by
  simp only [flagByte, decide_eq_true_eq]

theorem shrFlag_toNat (a : Byte) : (shrFlag a).toNat = a.toNat % 2 := by
  rw [shrFlag, BitVec.toNat_and]
  exact Nat.and_one_is_mod a.toNat

/-- The flag of SHR has no bit left once it is halved itself. -/
theorem shrFlag_halved (a : Byte) : shrFlag a >>> 1 = 0 := by
  apply BitVec.eq_of_toNat_eq
  rw [BitVec.toNat_ushiftRight, Nat.shiftRight_eq_div_pow, shrFlag_toNat]
  exact Nat.div_eq_of_lt (Nat.mod_lt _ (by decide))

/-- The flag of SHL is bit 7 in its place (90_conflicts C1). -/
theorem shlFlag_eq (a : Byte) : shlFlag a = if 128 ≤ a.toNat then 0x80 else 0 := by
  calc
    shlFlag a = if a.getLsbD 7 then 0x80 else 0 := BitVec.and_twoPow a 7
    _ = if 128 ≤ a.toNat then 0x80 else 0 := by
      rw [← BitVec.msb_eq_getLsbD_last a, BitVec.msb_eq_decide]
      simp

/-- The flag of SHL doubled does not fit a byte. -/
theorem shlFlag_doubled (a : Byte) : shlFlag a <<< 1 = 0 := by
  rw [shlFlag_eq]
  split <;> rfl

theorem halved_toNat (a : Byte) : (a >>> 1).toNat = a.toNat / 2 := by
  rw [BitVec.toNat_ushiftRight, Nat.shiftRight_eq_div_pow, pow_one]

theorem doubled_toNat (a : Byte) : (a <<< 1).toNat = a.toNat * 2 % 256 := by
  rw [BitVec.toNat_shiftLeft, Nat.shiftLeft_eq, pow_one]

/-! ### Flag first, then the result (42_alu R148 to R152) -/

/-- Settles O26: the sum is taken before both writes, so its low byte is that of the old values whatever `x` and `y` are. -/
theorem addRegGivesSumAndCarry : Obligations.AddRegGivesSumAndCarry := by
  intro x y s
  refine ⟨decodeWord_encode (.addReg x y), afterFlag x _ _ s, rfl, ?_, fun not_vf => ?_, afterFlag_frame x _ _ s⟩
  · rw [reg_afterFlag_self, wideSum, BitVec.toNat_ofNat]
  · exact (vf_afterFlag not_vf _ _ s).trans (flagByte_decide _)

/-- The difference of two registers written to a third: an operand that is `VF` reads as the flag just written. -/
theorem difference_afterFlag (x a b : Nibble) (f : Byte) (s : State) :
    reg x (afterFlag x f (reg a (setReg vf f s) - reg b (setReg vf f s)) s) =
      (if a = vf then f else reg a s) - (if b = vf then f else reg b s) := by
  rw [reg_afterFlag_self, reg_setReg, reg_setReg]

/-- Settles O27: the operands are read after the flag is written. -/
theorem subWritesFlagThenDifference : Obligations.SubWritesFlagThenDifference := by
  intro x y s flag is_flag
  obtain rfl : flag = notBorrowFlag (reg x s) (reg y s) := is_flag.trans (flagByte_decide _).symm
  exact ⟨decodeWord_encode (.sub x y), afterFlag x _ _ s, rfl, difference_afterFlag x x y _ s,
    fun not_vf => vf_afterFlag not_vf _ _ s, afterFlag_frame x _ _ s⟩

/-- Settles O29: as for SUB, with the operands exchanged. -/
theorem subnWritesFlagThenDifference : Obligations.SubnWritesFlagThenDifference := by
  intro x y s flag is_flag
  obtain rfl : flag = notBorrowFlag (reg y s) (reg x s) := is_flag.trans (flagByte_decide _).symm
  exact ⟨decodeWord_encode (.subn x y), afterFlag x _ _ s, rfl, difference_afterFlag x y x _ s,
    fun not_vf => vf_afterFlag not_vf _ _ s, afterFlag_frame x _ _ s⟩

/-- Settles O28: `Vx` is the old one unless the flag was written over it. -/
theorem shrWritesLowBitThenHalves : Obligations.ShrWritesLowBitThenHalves := by
  intro x y s
  refine ⟨decodeWord_encode (.shr x y), afterFlag x _ _ s, rfl, fun (not_vf : x ≠ vf) => ⟨?_, ?_⟩, ?_,
    afterFlag_frame x _ _ s⟩
  · rw [reg_afterFlag_self, reg_setReg_of_ne not_vf, halved_toNat]
  · exact (congrArg BitVec.toNat (vf_afterFlag not_vf _ _ s)).trans (shrFlag_toNat _)
  · rintro (rfl : x = vf)
    exact (reg_afterFlag_self vf _ _ s).trans (by rw [reg_setReg_self, shrFlag_halved])

/-- Settles O30: as for SHR, with the high bit and the doubled `Vx`. -/
theorem shlWritesHighBitThenDoubles : Obligations.ShlWritesHighBitThenDoubles := by
  intro x y s
  refine ⟨decodeWord_encode (.shl x y), afterFlag x _ _ s, rfl, fun (not_vf : x ≠ vf) => ⟨?_, ?_⟩, ?_,
    afterFlag_frame x _ _ s⟩
  · rw [reg_afterFlag_self, reg_setReg_of_ne not_vf, doubled_toNat]
  · exact (vf_afterFlag not_vf _ _ s).trans (shlFlag_eq _)
  · rintro (rfl : x = vf)
    exact (reg_afterFlag_self vf _ _ s).trans (by rw [reg_setReg_self, shlFlag_doubled])

/-! ### One register, no flag (42_alu R142 to R147, R153) -/

/-- Settles O22: `VF` is a register like the others here. -/
theorem ldImmWritesImmediate : Obligations.LdImmWritesImmediate := fun x kk s =>
  ⟨decodeWord_encode (.ldImm x kk), _, rfl, reg_advance_setReg_self x kk s, advance_setReg_frame x kk s⟩

/-- Settles O23: addition of bytes is addition modulo 256. -/
theorem addImmWrapsWithoutFlag : Obligations.AddImmWrapsWithoutFlag := fun x kk s =>
  ⟨decodeWord_encode (.addImm x kk), _, rfl,
    (congrArg BitVec.toNat (reg_advance_setReg_self x _ s)).trans (BitVec.toNat_add (reg x s) kk), advance_setReg_frame x _ s⟩

/-- Settles O24: the byte written is the old `Vy`. -/
theorem ldRegCopies : Obligations.LdRegCopies := fun x y s =>
  ⟨decodeWord_encode (.ldReg x y), _, rfl, reg_advance_setReg_self x (reg y s) s, advance_setReg_frame x _ s⟩

/-- Settles O25: each operation on bytes is the one on their bits. -/
theorem bitwiseOpsActBitByBit : Obligations.BitwiseOpsActBitByBit := by
  intro x y s
  refine ⟨decodeWord_encode (.orReg x y), decodeWord_encode (.andReg x y), decodeWord_encode (.xorReg x y), _, _, _, rfl, rfl, rfl,
    fun k _ => ⟨?_, ?_, ?_⟩, advance_setReg_frame x _ s, advance_setReg_frame x _ s, advance_setReg_frame x _ s⟩
  · rw [reg_advance_setReg_self, BitVec.getLsbD_or]
  · rw [reg_advance_setReg_self, BitVec.getLsbD_and]
  · rw [reg_advance_setReg_self, BitVec.getLsbD_xor]

/-- The byte a STEP draws is the one its event brings, or the free value whose turn it is (60_exceptions R222). -/
theorem drawnByte_eq {s : State} {r : Byte} (source : s.draw = some r ∨ (s.draw = none ∧ r = Config.randomByte s.draws)) :
    drawnByte s = r := by
  rcases source with named | ⟨unnamed, rfl⟩
  · rw [drawnByte, named]
  · rw [drawnByte, unnamed]

/-- Settles O31: RND writes one register of the state in which the draw is counted. -/
theorem rndMasksTheDrawnByte : Obligations.RndMasksTheDrawnByte := by
  intro x kk s r source
  refine ⟨decodeWord_encode (.rnd x kk), _, rfl, fun k _ => ?_, rfl, sameRegsBut_advance_setReg x _ (countDraw s), rfl, ⟨rfl, rfl⟩,
    ⟨rfl, rfl⟩, fun _ => rfl, ⟨rfl, rfl⟩, ⟨rfl, rfl, rfl⟩, rfl, rfl, rfl⟩
  rw [reg_advance_setReg_self, drawnByte_eq source, BitVec.getLsbD_and]

end Sys2Proof.Machine
end

section
/-! PROOFS for the family 43_index_memory: the three outcomes of the stores that FX33 and FX55 share, the two of the block load,
and the state after `I` is written. -/

namespace Sys2Proof.Machine

/-! ### Stores that pass or fail the guard (43_index_memory R173, R174) -/

theorem onlyMemoryAndPc_advance_setMem (m : Memory) (s : State) : OnlyMemoryAndPc s (advance (setMem m s)) :=
  ⟨fun _ => rfl, rfl, ⟨rfl, rfl⟩, ⟨rfl, rfl⟩, ⟨rfl, rfl⟩, ⟨rfl, rfl, rfl⟩, rfl, rfl, rfl⟩

/-- Placed bytes leave every byte around them as it was. -/
theorem sameMemoryOutside_putBytes {s t : State} {a hi : Nat} {ws : List Byte} (hm : s.mem.wf = true)
    (placed : t.mem = putBytes a ws s.mem) (fits : a + ws.length ≤ Config.memSize) (ends : a + ws.length ≤ hi) :
    SameMemoryOutside a hi s t := by
  intro b outside
  rw [placed, readByte_putBytes hm a ws fits, if_neg (by omega)]

/-- A store whose first address is below `PROG_BASE` changes nothing but the status (60_exceptions R212). -/
theorem storeThrough_below (i : Instr) {ws : List Byte} {s : State} (some_byte : ws ≠ [])
    (low : s.i.toNat < Config.progBase) : storeThrough i ws s = trap .outOfBounds i (some s.i.toNat) s := by
  have stored : storeBytes (effectiveAddress s 0) ws s.mem = (s.mem, some s.i.toNat) :=
    storeBytes_low s.i.toNat ws s.mem some_byte low
  simp only [storeThrough, stored]
  rfl

/-- The bytes that fit where a store from `I` upward runs off the end of memory: none where `I` itself is outside. -/
def fittingBytes (ws : List Byte) (s : State) : List Byte := ws.take (Config.memSize - s.i.toNat)

theorem fittingBytes_length (ws : List Byte) (s : State) :
    (fittingBytes ws s).length = min (Config.memSize - s.i.toNat) ws.length :=
  List.length_take

/-- The state left by a store that runs off the end of memory: the bytes that fit are written, and the record names the first
address outside (60_exceptions R212). -/
def afterStorePastEnd (i : Instr) (ws : List Byte) (s : State) : State :=
  raiseError .outOfBounds (some (encode i)) (some (max s.i.toNat Config.memSize))
    (setMem (putBytes s.i.toNat (fittingBytes ws s) s.mem) s)

/-- A store that runs off the end of memory begins in the general region: no store is as long as that region. -/
theorem progBase_le_of_pastEnd {a n : Nat} (short : n ≤ Config.numRegs) (past : Config.memSize < a + n) :
    Config.progBase ≤ a := by
  simp only [Config.memSize, Config.progBase, Config.numRegs] at *
  omega

theorem storeThrough_pastEnd (i : Instr) {ws : List Byte} {s : State} (some_byte : ws ≠ []) (low : Config.progBase ≤ s.i.toNat)
    (past : Config.memSize < s.i.toNat + ws.length) : storeThrough i ws s = .next (afterStorePastEnd i ws s) := by
  have stored : storeBytes (effectiveAddress s 0) ws s.mem =
      (putBytes s.i.toNat (fittingBytes ws s) s.mem, some (max s.i.toNat Config.memSize)) :=
    storeBytes_high s.i.toNat ws s.mem some_byte low past
  simp only [storeThrough, stored]
  rfl

/-- The bytes before the refused address stay written. -/
theorem readByte_afterStorePastEnd (i : Instr) {ws : List Byte} {s : State} {k : Nat} (hm : s.mem.wf = true)
    (stored : k < ws.length) (inside : s.i.toNat + k < Config.memSize) :
    readByte (afterStorePastEnd i ws s).mem (s.i.toNat + k) = ws.getD k 0 := by
  have len := fittingBytes_length ws s
  have kept : (fittingBytes ws s).getD k 0 = ws.getD k 0 := by
    rw [fittingBytes, List.getD_eq_getElem?_getD, List.getElem?_take_of_lt (by omega), ← List.getD_eq_getElem?_getD]
  exact (readByte_putBytes_placed hm (by omega) (by omega)).trans kept

theorem sameMemoryOutside_afterStorePastEnd (i : Instr) (ws : List Byte) {s : State} (hm : s.mem.wf = true) :
    SameMemoryOutside s.i.toNat Config.memSize s (afterStorePastEnd i ws s) := by
  have len := fittingBytes_length ws s
  by_cases outside : Config.memSize ≤ s.i.toNat
  · have nothing : fittingBytes ws s = [] := List.eq_nil_of_length_eq_zero (by omega)
    intro b _
    exact congrArg (fun bytes => readByte (putBytes s.i.toNat bytes s.mem) b) nothing
  · exact sameMemoryOutside_putBytes hm rfl (by omega) (by omega)

/-- Nothing but bytes of memory and the status has changed. -/
def OnlyMemoryAndStatus (s t : State) : Prop :=
  t.pc = s.pc ∧ SameRegs s t ∧ t.i = s.i ∧ SameStack s t ∧ SameTimers s t ∧ SameScreen s t ∧ t.loaded = s.loaded ∧
    t.started = s.started ∧ SameInputs s t

theorem onlyMemoryAndStatus_afterStorePastEnd (i : Instr) (ws : List Byte) (s : State) :
    OnlyMemoryAndStatus s (afterStorePastEnd i ws s) :=
  ⟨rfl, fun _ => rfl, rfl, ⟨rfl, rfl⟩, ⟨rfl, rfl⟩, ⟨rfl, rfl⟩, rfl, rfl, rfl, rfl, rfl⟩

/-- Settles O35: three bytes stored through the guard, the digits of `Vx`. -/
theorem ldBStoresDigitsOrFaults : Obligations.LdBStoresDigitsOrFaults := by
  intro x s a hm is_i
  obtain rfl : s.i.toNat = a := is_i
  have some_byte : bcdDigits (reg x s) ≠ [] := List.cons_ne_nil _ _
  obtain ⟨hundreds, tens, ones⟩ := bcdDigits_toNat (reg x s)
  refine ⟨decodeWord_encode (.ldB x), fun low fits => ?_, storeThrough_below (.ldB x) some_byte, fun past => ?_⟩
  · rw [← hundreds, ← tens, ← ones]
    have placed {k : Nat} (digit : k < 3) :=
      congrArg BitVec.toNat (readByte_putBytes_placed (ws := bcdDigits (reg x s)) hm fits digit)
    exact ⟨_, exec_ldB_inside low fits, placed (k := 0) (by decide), placed (by decide), placed (by decide),
      sameMemoryOutside_putBytes hm rfl fits le_rfl, rfl, onlyMemoryAndPc_advance_setMem _ s⟩
  · rw [← hundreds, ← tens]
    have stored {k : Nat} (digit : k < 3) (inside : s.i.toNat + k < Config.memSize) :=
      congrArg BitVec.toNat (readByte_afterStorePastEnd (.ldB x) (ws := bcdDigits (reg x s)) hm digit inside)
    exact ⟨_, storeThrough_pastEnd (.ldB x) some_byte (progBase_le_of_pastEnd (by decide) past) past, rfl,
      stored (k := 0) (by decide), stored (by decide),
      sameMemoryOutside_afterStorePastEnd (.ldB x) _ hm, onlyMemoryAndStatus_afterStorePastEnd (.ldB x) _ s⟩

/-- Settles O36: `x + 1` bytes stored through the guard, the registers in order. -/
theorem ldMemRegsStoresOrFaults : Obligations.LdMemRegsStoresOrFaults := by
  intro x s a hm is_i
  obtain rfl : s.i.toNat = a := is_i
  have len : (regsThrough x s).length = x.toNat + 1 := regsThrough_length x s
  have some_byte : regsThrough x s ≠ [] := List.ne_nil_of_length_eq_add_one len
  refine ⟨decodeWord_encode (.ldMemRegs x), fun low high => ?_, storeThrough_below (.ldMemRegs x) some_byte, fun past => ?_⟩
  · have fits : s.i.toNat + (regsThrough x s).length ≤ Config.memSize := by omega
    refine ⟨_, exec_ldMemRegs_inside low fits, fun k named => ?_, sameMemoryOutside_putBytes hm rfl fits (by omega), rfl,
      onlyMemoryAndPc_advance_setMem _ s⟩
    exact (readByte_putBytes_placed hm fits (by omega)).trans (getD_regsThrough named s)
  · have low := progBase_le_of_pastEnd (n := x.toNat + 1) x.isLt past
    refine ⟨_, storeThrough_pastEnd (.ldMemRegs x) some_byte low (by omega), rfl, fun k named inside => ?_,
      sameMemoryOutside_afterStorePastEnd (.ldMemRegs x) _ hm, onlyMemoryAndStatus_afterStorePastEnd (.ldMemRegs x) _ s⟩
    exact (readByte_afterStorePastEnd _ hm (by omega) inside).trans (getD_regsThrough named s)

/-! ### The block load (43_index_memory R175) -/

theorem exec_ldRegsMem_inside {x : Nibble} {s : State} (inside : s.i.toNat + x.toNat < Config.memSize) :
    exec (.ldRegsMem x) s = .next (advance (setRegsFrom 0 (blockBytes s.mem s.i.toNat (blockLength x)) s)) := by
  have read : readBlock s.mem (effectiveAddress s 0) (blockLength x) = .ok (blockBytes s.mem s.i.toNat (blockLength x)) :=
    readBlock_ok s.mem s.i.toNat (blockLength x) (.inr inside)
  simp only [exec, execLdRegsMem, read]

theorem exec_ldRegsMem_outside {x : Nibble} {s : State} (past : Config.memSize ≤ s.i.toNat + x.toNat) :
    exec (.ldRegsMem x) s = trap .readOutOfRange (.ldRegsMem x) (some (max s.i.toNat Config.memSize)) s := by
  have read : readBlock s.mem (effectiveAddress s 0) (blockLength x) = .error (max s.i.toNat Config.memSize) :=
    readBlock_error s.mem s.i.toNat (blockLength x) (Nat.succ_pos _) (Nat.lt_succ_of_le past)
  simp only [exec, execLdRegsMem, read]

theorem onlyRegsAndPc_advance_setRegsFrom (k : Nat) (ws : List Byte) (s : State) :
    OnlyRegsAndPc s (advance (setRegsFrom k ws s)) := by
  rw [setRegsFrom_eq]
  exact ⟨rfl, ⟨rfl, rfl⟩, ⟨rfl, rfl⟩, fun _ => rfl, ⟨rfl, rfl⟩, ⟨rfl, rfl, rfl⟩, rfl, rfl, rfl⟩

/-- FX65 loads each register it names from the byte in its place. -/
theorem reg_setRegsFrom_blockBytes {x k : Nibble} (named : k.toNat ≤ x.toNat) (m : Memory) (a : Nat) (s : State) :
    reg k (setRegsFrom 0 (blockBytes m a (blockLength x)) s) = readByte m (a + k.toNat) := by
  have len : (blockBytes m a (blockLength x)).length = x.toNat + 1 := blockBytes_length m a _
  have fits : 0 + (blockBytes m a (blockLength x)).length ≤ Config.numRegs := by
    have := x.isLt
    rw [len, Config.numRegs]
    omega
  rw [reg_setRegsFrom 0 _ s fits, if_pos (Nat.zero_le _), List.getD_eq_getElem _ _ (by omega)]
  simp [blockBytes]

/-- Settles O37: the whole block is read before any register is written, so a block that leaves memory writes none. -/
theorem ldRegsMemLoadsOrFaults : Obligations.LdRegsMemLoadsOrFaults := by
  intro x s
  refine ⟨decodeWord_encode (.ldRegsMem x), fun inside => ?_, exec_ldRegsMem_outside⟩
  refine ⟨_, exec_ldRegsMem_inside inside, fun k named => reg_setRegsFrom_blockBytes named _ _ s,
    fun k above => reg_setRegsFrom_above s (blockBytes_length _ _ _) above, ?_,
    onlyRegsAndPc_advance_setRegsFrom 0 _ s⟩
  rw [setRegsFrom_eq]
  rfl

/-! ### Writing `I` (43_index_memory R170 to R172) -/

theorem onlyIndexAndPc_advance_setI (w : Word) (s : State) : OnlyIndexAndPc s (advance (setI w s)) :=
  ⟨fun _ => rfl, ⟨rfl, rfl⟩, ⟨rfl, rfl⟩, fun _ => rfl, ⟨rfl, rfl⟩, ⟨rfl, rfl, rfl⟩, rfl, rfl, rfl⟩

theorem indexSum_toNat (i : Word) (w : Byte) : (indexSum i w).toNat = (i.toNat + w.toNat) % 0x10000 :=
  BitVec.toNat_ofNat _ _

/-- The last glyph address is 0x54B, so none is reduced (43_index_memory R172). -/
theorem glyphAddress_toNat (w : Byte) : (glyphAddress w).toNat = 0x50 + w.toNat * 5 := by
  have := w.isLt
  exact Nat.mod_eq_of_lt (show 0x50 + w.toNat * 5 < 2 ^ 16 by omega)

/-- Settles O32: the address operand is widened and checked against nothing. -/
theorem ldIWritesAddress : Obligations.LdIWritesAddress := fun nnn s =>
  ⟨decodeWord_encode (.ldI nnn), _, rfl, zextAddr_toNat nnn, rfl, onlyIndexAndPc_advance_setI _ s⟩

/-- Settles O33: the sum is reduced to the 16 bits of `I`, and no register is written. -/
theorem addIWrapsWithoutFlag : Obligations.AddIWrapsWithoutFlag := fun x s =>
  ⟨decodeWord_encode (.addI x), _, rfl, indexSum_toNat s.i (reg x s), rfl, onlyIndexAndPc_advance_setI _ s⟩

/-- Settles O34: the glyph's address is a multiple of the whole register. -/
theorem ldFPointsAtGlyph : Obligations.LdFPointsAtGlyph := fun x s =>
  ⟨decodeWord_encode (.ldF x), _, rfl, glyphAddress_toNat (reg x s), rfl, onlyIndexAndPc_advance_setI _ s⟩

end Sys2Proof.Machine
end

section
/-! PROOFS for the family 44_timers_keyboard: the state after a timer is written, what KEY_PRESS does in each status, and all that an
event can do to a block that waits. -/

namespace Sys2Proof.Machine

/-! ### The wait (44_timers_keyboard R193, R194) -/

theorem keyPress_of_waiting (key : Nibble) {x : Nibble} {s : State} (waits : s.status = .waitKey x) :
    keyPress key s = setStatus .running (advance (setReg x (key.setWidth 8) s)) := by
  rw [keyPress, waits]

theorem keyPress_of_not_waiting (key : Nibble) {s : State} (no_wait : ∀ x, s.status ≠ .waitKey x) : keyPress key s = s := by
  cases status : s.status with
  | waitKey x => exact absurd status (no_wait x)
  | running => rw [keyPress, status]
  | faulted rec => rw [keyPress, status]

/-- Settles O42: one register is written, with the key widened to a byte, and then the status; where nothing waits, nothing is. -/
theorem keyPressCompletesTheWait : Obligations.KeyPressCompletesTheWait := by
  refine fun key s => ⟨fun x waits => ?_, fun no_wait => congrArg Host.Outcome.next (keyPress_of_not_waiting key no_wait)⟩
  have key_read : (reg x (advance (setReg x (key.setWidth 8) s))).toNat = key.toNat := by
    rw [reg_advance_setReg_self, BitVec.toNat_setWidth_of_le (by decide)]
  have served : applyEvent (.keyPress key) s = .next (setStatus .running (advance (setReg x (key.setWidth 8) s))) :=
    congrArg Host.Outcome.next (keyPress_of_waiting key waits)
  exact ⟨_, served, key_read, rfl, rfl, sameRegsBut_advance_setReg x _ s, rfl, ⟨rfl, rfl⟩, ⟨rfl, rfl⟩, fun _ => rfl, ⟨rfl, rfl⟩,
    rfl, rfl, rfl, rfl, rfl⟩

/-- All that an event other than RESET and KEY_PRESS can leave of a waiting block: a STEP and a LOAD are not enabled, and the reads
change nothing (60_exceptions R220). -/
theorem applyEvent_cases_of_waiting {s t : State} {x : Nibble} {e : HostEvent} (waits : s.status = .waitKey x)
    (started : s.started = true) (not_reset : e ≠ .reset) (not_key : ∀ key, e ≠ .keyPress key)
    (h : applyEvent e s = .next t) :
    t = s ∨ (e = .timerTick ∧ t = timerTick s) ∨ (e = .dirtyClear ∧ t = dirtyClear s) := by
  cases e with
  | reset => exact absurd rfl not_reset
  | keyPress key => exact absurd rfl (not_key key)
  | load image => simp [applyEvent, loadEnabled_eq_false.mpr (.inr started)] at h
  | step r => simp [applyEvent, stepEvent, waits] at h
  | timerTick => injection h with h; exact .inr (.inl ⟨rfl, h.symm⟩)
  | dirtyClear => injection h with h; exact .inr (.inr ⟨rfl, h.symm⟩)
  | readDirty | snapshot | readStatus => injection h with h; exact .inl h.symm

/-- Settles O43: an event that answers changed nothing, counted the timers or cleared the dirty flag. -/
theorem waitIsLeftOnlyByKeyOrReset : Obligations.WaitIsLeftOnlyByKeyOrReset := by
  intro s t x e waits started not_reset not_key h
  obtain rfl | ⟨rfl, rfl⟩ | ⟨rfl, rfl⟩ := applyEvent_cases_of_waiting waits started not_reset not_key h
  · exact ⟨waits, rfl, fun _ => rfl, rfl, ⟨rfl, rfl⟩, fun _ => rfl, rfl, fun _ => ⟨rfl, rfl⟩, fun _ => rfl, rfl, rfl⟩
  · exact ⟨waits, rfl, fun _ => rfl, rfl, ⟨rfl, rfl⟩, fun _ => rfl, rfl, fun other => absurd rfl other,
      fun _ => rfl, rfl, rfl⟩
  · exact ⟨waits, rfl, fun _ => rfl, rfl, ⟨rfl, rfl⟩, fun _ => rfl, rfl, fun _ => ⟨rfl, rfl⟩,
      fun other => absurd rfl other, rfl, rfl⟩

/-! ### The instructions (44_timers_keyboard R190 to R195) -/

theorem onlyTimersAndPc_advance_setDt (w : Byte) (s : State) : OnlyTimersAndPc s (advance (setDt w s)) :=
  ⟨fun _ => rfl, rfl, ⟨rfl, rfl⟩, fun _ => rfl, ⟨rfl, rfl⟩, ⟨rfl, rfl, rfl⟩, rfl, rfl, rfl⟩

theorem onlyTimersAndPc_advance_setSt (w : Byte) (s : State) : OnlyTimersAndPc s (advance (setSt w s)) :=
  ⟨fun _ => rfl, rfl, ⟨rfl, rfl⟩, fun _ => rfl, ⟨rfl, rfl⟩, ⟨rfl, rfl, rfl⟩, rfl, rfl, rfl⟩

/-- Settles O38: the byte written is the delay timer. -/
theorem ldVxDtReadsTimer : Obligations.LdVxDtReadsTimer := fun x s =>
  ⟨decodeWord_encode (.ldVxDt x), _, rfl, reg_advance_setReg_self x s.dt s, advance_setReg_frame x _ s⟩

/-- Settles O39: each of the two instructions writes its own timer. -/
theorem timersAreSetFromRegister : Obligations.TimersAreSetFromRegister := fun x s =>
  ⟨decodeWord_encode (.ldDt x), decodeWord_encode (.ldSt x), _, _, rfl, rfl,
    ⟨rfl, rfl, rfl, onlyTimersAndPc_advance_setDt (reg x s) s⟩, rfl, rfl, rfl, onlyTimersAndPc_advance_setSt (reg x s) s⟩

/-- Settles O40: the instruction sets the status alone; the register is written by the KEY_PRESS that ends the wait. -/
theorem ldVxKSuspends : Obligations.LdVxKSuspends := fun x s =>
  ⟨decodeWord_encode (.ldVxK x), _, rfl, setStatus_status (.waitKey x) s, rfl, fun r => reg_setStatus r (.waitKey x) s, rfl,
    ⟨rfl, rfl⟩, ⟨rfl, rfl⟩, fun _ => rfl, ⟨rfl, rfl⟩, rfl, rfl, rfl, rfl, rfl⟩

/-- Settles O41: the raw word in the record is the word that decodes to the class (60_exceptions R211). -/
theorem classETakesUnimplemented : Obligations.ClassETakesUnimplemented := fun nnn _ =>
  ⟨decodeWord_encode (.classE nnn), rfl⟩

end Sys2Proof.Machine
end

section
/-! PROOFS for the family 60_exceptions: what each event does to a block that has faulted, what a STEP replies, and that an instruction
other than CXKK carries the two fields of the random byte through unread. -/

namespace Sys2Proof.Machine

/-! ### Noninterference of the random byte (60_exceptions R222) -/

/-- The state with another random byte at hand and another count of draws (log entry 9). -/
def withDraw (draw : Option Byte) (draws : Nat) (s : State) : State := { s with draw := draw, draws := draws }

section
variable (draw : Option Byte) (draws : Nat)

@[simp] theorem withDraw_pc (s : State) : (withDraw draw draws s).pc = s.pc := rfl
@[simp] theorem withDraw_mem (s : State) : (withDraw draw draws s).mem = s.mem := rfl
@[simp] theorem effectiveAddress_withDraw (s : State) (k : Nat) :
    effectiveAddress (withDraw draw draws s) k = effectiveAddress s k := rfl

/-- The stack operations read neither field (10_state R26, R27). -/
theorem push_withDraw (a : Word) (s : State) : push a (withDraw draw draws s) = (push a s).map (withDraw draw draws) := by
  unfold push
  rw [apply_dite (Option.map _)]
  rfl

theorem pop_withDraw (s : State) :
    pop (withDraw draw draws s) = (pop s).map fun popped => (popped.1, withDraw draw draws popped.2) := by
  unfold pop
  rw [apply_dite (Option.map _)]
  rfl

theorem setRegsFrom_withDraw (k : Nat) (ws : List Byte) (s : State) :
    setRegsFrom k ws (withDraw draw draws s) = withDraw draw draws (setRegsFrom k ws s) := by
  induction ws generalizing k s with
  | nil => rfl
  | cons w ws ih => exact ih (k + 1) (setReg (BitVec.ofNat 4 k) w s)

variable {draw draws} {s t : State}

theorem storeThrough_withDraw {i : Instr} {ws : List Byte} (h : storeThrough i ws s = .next t) :
    storeThrough i ws (withDraw draw draws s) = .next (withDraw draw draws t) := by
  unfold storeThrough at h ⊢
  rw [effectiveAddress_withDraw, withDraw_mem]
  split at h <;> obtain rfl := Host.Outcome.next.inj h <;> rfl

/-- An instruction other than CXKK answers the same next state whatever the two fields hold, and leaves them as they are. -/
theorem exec_withDraw {i : Instr} (not_rnd : ∀ x kk, i ≠ .rnd x kk) (h : exec i s = .next t) :
    exec i (withDraw draw draws s) = .next (withDraw draw draws t) := by
  cases i
  case rnd x kk => exact absurd rfl (not_rnd x kk)
  case ldB x => exact storeThrough_withDraw h
  case ldMemRegs x => exact storeThrough_withDraw h
  case ret =>
    simp only [exec, execRet, pop_withDraw] at h ⊢
    cases popped : pop s <;> rw [popped] at h <;> obtain rfl := Host.Outcome.next.inj h <;> rfl
  case call nnn =>
    simp only [exec, execCall, push_withDraw, withDraw_pc] at h ⊢
    cases pushed : push (returnAddress s.pc) s <;> rw [pushed] at h <;> obtain rfl := Host.Outcome.next.inj h <;> rfl
  case drw x y n =>
    simp only [exec, execDrw, effectiveAddress_withDraw, withDraw_mem] at h ⊢
    split at h <;> obtain rfl := Host.Outcome.next.inj h <;> rfl
  case ldRegsMem x =>
    simp only [exec, execLdRegsMem, effectiveAddress_withDraw, withDraw_mem, setRegsFrom_withDraw] at h ⊢
    split at h <;> obtain rfl := Host.Outcome.next.inj h <;> rfl
  -- the other instructions end in one way, with updates of other fields
  all_goals
    obtain rfl := Host.Outcome.next.inj h
    rfl

end

/-- Settles O58: the second run is the first with the two fields carried through. -/
theorem randomByteReachesOnlyRnd : Obligations.RandomByteReachesOnlyRnd := by
  intro i s draw draws not_rnd
  obtain ⟨t, h⟩ := exec_answers i s
  exact ⟨t, h, exec_withDraw not_rnd h⟩

/-! ### Causes (60_exceptions R210, R211) -/

/-- Settles O10: the record is the one of the raise, so its cause and address are those the instruction can raise. -/
theorem eachCauseHasItsInstructions : Obligations.EachCauseHasItsInstructions := by
  intro i s t rec running h faulted
  obtain ⟨cause, addr, m, can, rfl⟩ := raises_of_faulted running h faulted
  obtain rfl := Status.faulted.inj faulted
  cases can with
  | ldB x bad => exact .inl ⟨rfl, rfl, x, .inl rfl⟩
  | ldMemRegs x bad => exact .inl ⟨rfl, rfl, x, .inr rfl⟩
  | drw x y n bad => exact .inr (.inl ⟨rfl, rfl, .inl ⟨x, y, n, rfl⟩⟩)
  | ldRegsMem x bad => exact .inr (.inl ⟨rfl, rfl, .inr ⟨x, rfl⟩⟩)
  | call nnn => exact .inr (.inr (.inl ⟨rfl, rfl, nnn, rfl⟩))
  | ret => exact .inr (.inr (.inr (.inl ⟨rfl, rfl, rfl⟩)))
  | classE nnn => exact .inr (.inr (.inr (.inr ⟨rfl, rfl, nnn, rfl⟩)))

/-! ### The events, one by one (60_exceptions R213, R218, R220) -/

/-- A timer's count is subtraction that stops at zero (60_exceptions R218). -/
theorem countDown_toNat (w : Byte) : (countDown w).toNat = w.toNat - 1 := by
  unfold countDown
  split
  · bv_omega
  · omega

theorem onlyTimersAndPc_timerTick (s : State) : OnlyTimersAndPc s (timerTick s) :=
  ⟨fun _ => rfl, rfl, ⟨rfl, rfl⟩, fun _ => rfl, ⟨rfl, rfl⟩, ⟨rfl, rfl, rfl⟩, rfl, rfl, rfl⟩

/-- Settles O46: each timer is counted down by itself. -/
theorem timerTickCountsBothDown : Obligations.TimerTickCountsBothDown := fun s =>
  ⟨_, rfl, countDown_toNat s.dt, countDown_toNat s.st, rfl, onlyTimersAndPc_timerTick s⟩

theorem stepEvent_of_faulted {r : Option Byte} {s : State} {rec : ErrorRecord} (faulted : s.status = .faulted rec) :
    stepEvent r s = .next s := by
  rw [stepEvent, faulted]

theorem loadImage_status (image : List Byte) (s : State) : (loadImage image s).status = s.status := by
  unfold loadImage
  split <;> rfl

/-- Only RESET is a way out of `FAULTED` (60_exceptions R213). -/
theorem applyEvent_status_of_faulted {e : HostEvent} {s t : State} {rec : ErrorRecord} (faulted : s.status = .faulted rec)
    (not_reset : e ≠ .reset) (h : applyEvent e s = .next t) : t.status = s.status := by
  cases e with
  | reset => exact absurd rfl not_reset
  | load image =>
    simp only [applyEvent] at h
    split at h
    · obtain rfl := Host.Outcome.next.inj h
      exact loadImage_status image s
    · cases h
  | step r =>
    obtain rfl := Host.Outcome.next.inj ((stepEvent_of_faulted faulted).symm.trans h)
    rfl
  | keyPress key =>
    obtain rfl := Host.Outcome.next.inj h
    rw [keyPress_of_not_waiting key (by simp [faulted])]
  | timerTick | dirtyClear | readDirty | snapshot | readStatus =>
    obtain rfl := Host.Outcome.next.inj h
    rfl

/-- Settles O8: the status is kept by every event but RESET, and the rest of what each event does is the same as elsewhere. -/
theorem faultedIsLeftOnlyByReset : Obligations.FaultedIsLeftOnlyByReset := fun s _ faulted =>
  ⟨fun _ => stepEvent_of_faulted faulted,
    fun _ _ not_reset h => (applyEvent_status_of_faulted faulted not_reset h).trans faulted,
    ⟨rfl, congrArg Reply.status faulted⟩, ⟨rfl, rfl⟩, ⟨rfl, rfl⟩, ⟨_, rfl, rfl⟩,
    ⟨_, rfl, countDown_toNat s.dt, countDown_toNat s.st⟩, _, rfl, rfl⟩

/-! ### Replies (60_exceptions R220) -/

theorem stepReply_of_faulted {t : State} {rec : ErrorRecord} (faulted : t.status = .faulted rec) :
    stepReply (.next t) = .error rec := by
  rw [stepReply, faulted]

theorem stepReply_of_not_faulted {t : State} (goes_on : ∀ rec, t.status ≠ .faulted rec) : stepReply (.next t) = .ok := by
  cases status : t.status with
  | faulted rec => exact absurd status (goes_on rec)
  | running => rw [stepReply, status]
  | waitKey x => rw [stepReply, status]

/-- A STEP replies from the state it answers. -/
theorem eventReply_step {r : Byte} {s t : State} (h : applyEvent (.step r) s = .next t) :
    eventReply (.step r) s = stepReply (.next t) :=
  congrArg stepReply h

/-- Settles O48: a read answers a field and the same state; a STEP's reply is read off the status it leaves. -/
theorem readsAnswerAndChangeNothing : Obligations.ReadsAnswerAndChangeNothing := fun _ =>
  ⟨⟨rfl, rfl⟩, ⟨rfl, rfl⟩, ⟨rfl, rfl⟩, rfl,
    fun _ _ _ h => ⟨fun goes_on => (eventReply_step h).trans (stepReply_of_not_faulted goes_on),
      fun _ faulted => (eventReply_step h).trans (stepReply_of_faulted faulted)⟩,
    fun _ _ faulted => (eventReply_step (stepEvent_of_faulted faulted)).trans (stepReply_of_faulted faulted)⟩

/-- Settles O49: with an event pending, `transition` is the application of the oldest. -/
theorem hostEventsComeOldestFirst : Obligations.HostEventsComeOldestFirst := by
  intro s e later pending
  rw [step, transition, pending]

end Sys2Proof.Machine
end

section
/-! PROOFS for the family 70_reset_and_hazards: what RESET and the machine's start give (R240). The list of cells is empty there, so
every byte is its `resetByte`. -/

namespace Sys2Proof.Machine

theorem fontGlyphs_length : fontGlyphs.length = 80 := by decide

/-- The font table starts at `FONT_BASE` (10_state R33). -/
theorem resetByte_fontBase_add (d : Nat) : resetByte (Config.fontBase + d) = fontGlyphs.getD d 0 := by
  rw [resetByte, if_pos (Nat.le_add_right _ _), Nat.add_sub_cancel_left]

/-- Outside the font table memory is 0 at reset (10_state R29). -/
theorem resetByte_outside_font {a : Nat} (outside : a < Config.fontBase ∨ Config.fontBase + fontGlyphs.length ≤ a) :
    resetByte a = 0 := by
  unfold resetByte
  split
  · exact List.getD_eq_default _ _ (by omega)
  · rfl

@[simp] theorem reg_resetBlock (r : Nibble) (s : State) : reg r (resetBlock s) = 0 :=
  Vector.getElem_replicate _

@[simp] theorem stack_resetBlock (s : State) (k : Nat) (hk : k < Config.stackDepth) : (resetBlock s).stack[k] = 0 :=
  Vector.getElem_replicate _

theorem hasResetValues_resetBlock (s : State) : HasResetValues (resetBlock s) :=
  ⟨fun r => reg_resetBlock r s, rfl, stack_resetBlock s, rfl, rfl, rfl,
    fun d _ => resetByte_fontBase_add d,
    fun _ outside => resetByte_outside_font (fontGlyphs_length ▸ outside),
    pix_clearGrid, rfl, rfl, rfl, rfl, rfl⟩

/-- RESET changes nothing at the machine's start. -/
theorem resetBlock_reset : resetBlock State.reset = State.reset := rfl

/-- Settles O47: the RESET event answers `resetBlock`, and the start is a `resetBlock` too. -/
theorem resetGivesEveryValue : Obligations.ResetGivesEveryValue :=
  ⟨resetBlock_reset ▸ hasResetValues_resetBlock State.reset, fun s => ⟨resetBlock s, rfl, hasResetValues_resetBlock s⟩⟩

end Sys2Proof.Machine
end
